-- ==== Sys2Proof/Word.lean ====
section
/-! DEFINITION. The byte, the one word type whose width the spec fixes (20_memory.md R38: "Each byte is 8 bits").
Every other width is a parameter (00_scope.md R8), and every register is an unsigned integer compared and added as a
natural number (R11, R12), so registers are naturals held below their width's bound (log 2). -/

namespace Sys2Proof

/-- One byte of storage, one lane of an element bus (R13, R38). -/
abbrev Byte := BitVec 8

/-- `zeros(n)` of R13: n bytes of 0x00. -/
abbrev zeros (n : Nat) : List Byte := List.replicate n 0

end Sys2Proof
end

