-- ==== Sys2Proof/Config.lean ====
section
/-! DEFINITION. The implementation parameters of 00_scope.md R8, as plain data, and the values the spec leaves free.
"A model takes each one as an argument" (R8): a `Params` stands in every State and no step changes it (R37, log 1), so
a statement about every State is a statement about every configuration. -/

namespace Sys2Proof

/-- One value of the copy unit's function: COPY_FN(len, old, src) = dst (R16), for one `old`, or with `none` for every
`old`. -/
structure CopyRow where
  len : Nat
  old : Option (List Byte)
  src : List Byte
  dst : List Byte
  deriving DecidableEq, Repr

/-- The parameter table of R8. -/
structure Params where
  /-- ADDR_W: width in bits of a storage byte address and of BASE. -/
  addrW : Nat
  /-- CAP_W: width of CAP, HEAD, TAIL and COUNT. -/
  capW : Nat
  /-- ESZ_W: width of ESIZE. -/
  eszW : Nat
  /-- EMAX: byte width of the element data buses. -/
  emax : Nat
  /-- CLEAR_ON_REMOVE: DEQ zero-fills the vacated slot (R95). -/
  clearOnRemove : Bool
  /-- COPY_FN: the copy unit's function, by its table. At arguments with no row the unit ties `cp_dst` to `cp_src`, as
  a platform with no copy unit does (R104); of two rows that match, the first counts. The arguments are finitely many, so
  every total and pure function (R105) has such a table. DESIGN CHOICE of representation, log 4. -/
  copyTable : List CopyRow
  /-- STORAGE0: the storage contents at reset, the bytes that are not 0x00, by address. The address space is finite, so
  every byte map has such a list. DESIGN CHOICE of representation, log 3. -/
  storage0 : List (Nat × Byte)
  deriving DecidableEq, Repr

/-- The example configuration of R10, which the test vectors use. STORAGE0 all zero and no copy unit: DESIGN CHOICE,
log 3 and 4. -/
def Params.exampleConfig : Params :=
  { addrW := 16, capW := 4, eszW := 3, emax := 7, clearOnRemove := true, copyTable := [], storage0 := [] }

/-- A free byte: the value the n-th draw gives where 93_implementation_defined.md says "any value" (U3, U11). Safe: no
value of it can be proved. Logs 8 and 9. -/
opaque Config.freeByte : Nat → Byte

/-- A free choice: of the bytes that ONE write transaction longer than the whole address space puts on one address,
which one lands last. The spec does not say (R14 gives no order among the bytes of a transaction). Log 10. -/
opaque Config.lastLane : Nat → Nat

end Sys2Proof
end

