-- ==== Sys2Proof/Syntax.lean ====
section
/-! DEFINITION. The commands, one constructor for each row of spec/opcode_table.json; the command record of
30_encoding.md R57; and the assembly forms of R68 and R69. -/

namespace Sys2Proof

/-- The command set RBFC-1 (30_encoding.md R57, R59). A constructor holds the fields its command reads; a field marked
`-` in R57 "has no effect on any state, response or port" (R64) and is not held. `p` is the present bit (R63). -/
inductive Instr where
  /-- OP 0, R76: initialize(storage, capacity, element_size). -/
  | init (p : Bool) (base cap esize : Nat)
  /-- OP 1, R81: is_full(rb). -/
  | qfull
  /-- OP 2, R82: is_empty(rb). -/
  | qempty
  /-- OP 3, R85: enqueue(rb, element); `wdata` is the WDATA bus, lane 0 first. -/
  | enq (p : Bool) (wdata : List Byte)
  /-- OP 4, R91: dequeue(rb, out_element). -/
  | deq (p : Bool)
  /-- OP 5, R101: set_copy_fn(rb, fn). -/
  | setcopy (p : Bool)
  /-- OP 6, R102: set_print_fn(rb, fn). -/
  | setprint (p : Bool)
  /-- OP 7, R65: reserved. -/
  | rsv
  deriving DecidableEq, Repr

/-- The record the command port carries (R56, R57). -/
structure Cmd where
  op : Nat
  p : Bool
  base : Nat
  cap : Nat
  esize : Nat
  wdata : List Byte
  deriving DecidableEq, Repr

/-- The assembly lines of R68, and the two pseudo-commands of R69. -/
inductive AsmLine where
  | init (base cap esize : Nat)
  | initNull
  | qfull
  | qempty
  | enq (data : List Byte)
  | enqNull
  | deq
  | deqDiscard
  | setcopy (on : Bool)
  | setprint (on : Bool)
  | rsv
  | drop
  | nop
  deriving DecidableEq, Repr

end Sys2Proof
end

