-- ==== Sys2Proof/WellFormed.lean ====
section
/-! DEFINITION. What a legal configuration is (00_scope.md R8, R9), and what a command of that configuration is: each
field fits its port (30_encoding.md R56, R64). -/

namespace Sys2Proof

/-- R8: ADDR_W ≥ 1, CAP_W ≥ 1, ESZ_W ≥ 1. -/
abbrev Params.WidthsOk (c : Params) : Prop := 1 ≤ c.addrW ∧ 1 ≤ c.capW ∧ 1 ≤ c.eszW

/-- R9: EMAX ≥ 2^ESZ_W − 1. -/
abbrev Params.BusOk (c : Params) : Prop := 2 ^ c.eszW - 1 ≤ c.emax

/-- R16: COPY_FN takes n old bytes and n source bytes and returns n bytes. -/
abbrev Params.CopyOk (c : Params) : Prop :=
  ∀ r ∈ c.copyTable, (r.old.all fun o => o.length == r.len) = true ∧ r.src.length = r.len ∧ r.dst.length = r.len

/-- R8, R38: STORAGE0 is a byte map over addresses 0 to 2^ADDR_W − 1; its list is canonical (rising, no zero byte). -/
abbrev Params.StorageOk (c : Params) : Prop :=
  (c.storage0.map Prod.fst).Pairwise (· < ·) ∧ ∀ x ∈ c.storage0, x.1 < 2 ^ c.addrW ∧ x.2 ≠ 0

/-- A configuration the spec admits (R8, R9). -/
abbrev Params.Ok (c : Params) : Prop := c.WidthsOk ∧ c.BusOk ∧ c.CopyOk ∧ c.StorageOk

/-- F_BASE has ADDR_W bits (R56, R64). -/
def fitsAddr (c : Params) (v : Nat) : Bool := decide (v < 2 ^ c.addrW)

/-- F_CAP has CAP_W bits (R56, R64). -/
def fitsCap (c : Params) (v : Nat) : Bool := decide (v < 2 ^ c.capW)

/-- F_ESIZE has ESZ_W bits (R56, R64). -/
def fitsEsize (c : Params) (v : Nat) : Bool := decide (v < 2 ^ c.eszW)

/-- WDATA has EMAX byte lanes (R56, R13). -/
def fitsBus (c : Params) (d : List Byte) : Bool := decide (d.length = c.emax)

/-- A command of the configuration: every field it reads fits its port. -/
def Instr.wf (c : Params) : Instr → Bool
  | .init _ base cap esize => fitsAddr c base && fitsCap c cap && fitsEsize c esize
  | .qfull => true
  | .qempty => true
  | .enq _ wdata => fitsBus c wdata
  | .deq _ => true
  | .setcopy _ => true
  | .setprint _ => true
  | .rsv => true

/-- A record the command port can carry: every field fits (R56). -/
def Cmd.wf (c : Params) (m : Cmd) : Bool :=
  decide (m.op < 8) && fitsAddr c m.base && fitsCap c m.cap && fitsEsize c m.esize && fitsBus c m.wdata

end Sys2Proof
end

