-- ==== Sys2Proof/Decode.lean ====
section
/-! DEFINITION. Decoding a packed command word (30_encoding.md R58, R59), and encoding one. The packed word is the
notation of R58 for the record the ports carry in parallel; decoding needs only the header once the fields are cut out
(R67). -/

namespace Sys2Proof

/-- CW = 4 + ADDR_W + CAP_W + ESZ_W + 8*EMAX (R58). -/
def wordBits (c : Params) : Nat := 4 + c.addrW + c.capW + c.eszW + 8 * c.emax

/-- The first bit of F_CAP, F_ESIZE and WDATA in W (R58). -/
def capAt (c : Params) : Nat := 4 + c.addrW
def esizeAt (c : Params) : Nat := 4 + c.addrW + c.capW
def wdataAt (c : Params) : Nat := 4 + c.addrW + c.capW + c.eszW

/-- `w[lo + width − 1 : lo]` of R11. -/
def bitField (w lo width : Nat) : Nat := w / 2 ^ lo % 2 ^ width

/-- The n byte lanes of a bus value, lane k from bits [8k+7:8k] (R13). -/
def lanesOfNat : Nat → Nat → List Byte
  | 0, _ => []
  | n + 1, w => BitVec.ofNat 8 w :: lanesOfNat n (w / 256)

/-- The bus value that carries these byte lanes (R13). -/
def natOfLanes : List Byte → Nat
  | [] => 0
  | b :: bs => b.toNat + 256 * natOfLanes bs

/-- Cut the packed word into the record of R57 (R58). -/
def unpack (c : Params) (w : Nat) : Cmd :=
  { op := bitField w 1 3
    p := bitField w 0 1 == 1
    base := bitField w 4 c.addrW
    cap := bitField w (capAt c) c.capW
    esize := bitField w (esizeAt c) c.eszW
    wdata := lanesOfNat c.emax (w / 2 ^ wdataAt c) }

/-- The command a record stands for: `[INIT, QFULL, QEMPTY, ENQ, DEQ, SETCOPY, SETPRINT, RSV][H[3:1]]`, with P = H[0]
(R59). OP has three bits, so the last line is OP = 7. -/
def Cmd.instr (m : Cmd) : Instr :=
  match m.op with
  | 0 => .init m.p m.base m.cap m.esize
  | 1 => .qfull
  | 2 => .qempty
  | 3 => .enq m.p m.wdata
  | 4 => .deq m.p
  | 5 => .setcopy m.p
  | 6 => .setprint m.p
  | _ => .rsv

/-- Why a number is no command word. -/
inductive DecodeError where
  /-- It has a one bit at or above bit CW, where the ports have no wire (R58). -/
  | widerThanThePorts
  deriving DecidableEq, Repr

/-- Decode a packed command word. Total over the words of CW bits (R59); a wider number is rejected by name. -/
def decode (c : Params) (w : Nat) : Except DecodeError Instr :=
  if w < 2 ^ wordBits c then .ok (unpack c w).instr else .error .widerThanThePorts

/-- The record an assembler writes for a command: "An assembler writes fields it ignores as 0" (R68). -/
def Instr.cmd (c : Params) : Instr → Cmd
  | .init p base cap esize => ⟨0, p, base, cap, esize, zeros c.emax⟩
  | .qfull => ⟨1, false, 0, 0, 0, zeros c.emax⟩
  | .qempty => ⟨2, false, 0, 0, 0, zeros c.emax⟩
  | .enq p wdata => ⟨3, p, 0, 0, 0, wdata⟩
  | .deq p => ⟨4, p, 0, 0, 0, zeros c.emax⟩
  | .setcopy p => ⟨5, p, 0, 0, 0, zeros c.emax⟩
  | .setprint p => ⟨6, p, 0, 0, 0, zeros c.emax⟩
  | .rsv => ⟨7, false, 0, 0, 0, zeros c.emax⟩

/-- The header H = {OP, P} (R58). -/
def Cmd.header (m : Cmd) : Nat := m.p.toNat + 2 * m.op

/-- Lay a record out as the packed word of R58. -/
def pack (c : Params) (m : Cmd) : Nat :=
  m.header + 2 ^ 4 * m.base + 2 ^ capAt c * m.cap + 2 ^ esizeAt c * m.esize + 2 ^ wdataAt c * natOfLanes m.wdata

/-- The packed word of a command. -/
def encode (c : Params) (i : Instr) : Nat := pack c (i.cmd c)

/-- One row of spec/opcode_table.json: match and mask apply to the 4-bit header. -/
structure OpcodeRow where
  mnemonic : String
  mask : Nat
  pattern : Nat
  deriving DecidableEq, Repr

/-- spec/opcode_table.json, row by row (R59). -/
def opcodeTable : List OpcodeRow :=
  [⟨"INIT", 0b1110, 0b0000⟩, ⟨"QFULL", 0b1110, 0b0010⟩, ⟨"QEMPTY", 0b1110, 0b0100⟩, ⟨"ENQ", 0b1110, 0b0110⟩,
   ⟨"DEQ", 0b1110, 0b1000⟩, ⟨"SETCOPY", 0b1110, 0b1010⟩, ⟨"SETPRINT", 0b1110, 0b1100⟩, ⟨"RSV", 0b1110, 0b1110⟩]

/-- The rows of the opcode table that a header matches. -/
def rowsOf (h : Nat) : List String := (opcodeTable.filter fun r => h &&& r.mask == r.pattern).map OpcodeRow.mnemonic

/-- The table's mnemonic of a command. -/
def Instr.mnemonic : Instr → String
  | .init _ _ _ _ => "INIT"
  | .qfull => "QFULL"
  | .qempty => "QEMPTY"
  | .enq _ _ => "ENQ"
  | .deq _ => "DEQ"
  | .setcopy _ => "SETCOPY"
  | .setprint _ => "SETPRINT"
  | .rsv => "RSV"

/-- A byte list in lane order on a bus of n lanes, "with lanes not written being 0" (R68). -/
def busOf (n : Nat) (d : List Byte) : List Byte := (List.range n).map fun k => d.getD k 0

/-- Assemble one line (R68); DROP expands to DEQ.discard and NOP to QEMPTY (R69). -/
def assemble (c : Params) : AsmLine → Instr
  | .init base cap esize => .init true base cap esize
  | .initNull => .init false 0 0 0
  | .qfull => .qfull
  | .qempty => .qempty
  | .enq data => .enq true (busOf c.emax data)
  | .enqNull => .enq false (zeros c.emax)
  | .deq => .deq true
  | .deqDiscard => .deq false
  | .setcopy on => .setcopy on
  | .setprint on => .setprint on
  | .rsv => .rsv
  | .drop => .deq false
  | .nop => .qempty

/-- The instruction the decoder reads from a table row's bits, every higher bit 0, in the example configuration (R10).
The header and the zero fields are the same in every configuration. -/
def decodeTableWord (nbits w : Nat) : Option Instr :=
  match decode .exampleConfig (w % 2 ^ nbits) with
  | .ok i => some i
  | .error _ => none

end Sys2Proof
end

