-- ==== Sys2Proof/Machine/State.lean ====
section
/-! DEFINITION. The state of the RBFC as plain data (10_state.md R21, R34; 20_memory.md R38), with what stands at its
ports, and the state after reset (70_reset_and_hazards.md R131). -/

namespace Sys2Proof.Machine

/-- The result codes of 60_exceptions.md R112. -/
inductive ResultCode where
  | ok
  | invalidArgument
  | full
  | empty
  deriving DecidableEq, Repr

/-- One response: rsp_code and rsp_flag (30_encoding.md R61, R62). -/
structure Response where
  code : ResultCode
  flag : Bool
  deriving DecidableEq, Repr

/-- tr_kind (42_hooks.md R103). -/
inductive TraceKind where
  | enq
  | deq
  deriving DecidableEq, Repr

/-- One trace event, the signals of R103; `elem` is all EMAX lanes of tr_elem. -/
structure TraceEvent where
  kind : TraceKind
  len : Nat
  elem : List Byte
  head : Nat
  tail : Nat
  count : Nat
  deriving DecidableEq, Repr

/-- One transaction on the storage port (20_memory.md R43): m_we, m_addr, m_len, and lanes 0 to m_len − 1 of m_wdata
(a write) or of m_rdata (a read). -/
structure Txn where
  we : Bool
  addr : Nat
  len : Nat
  data : List Byte
  deriving DecidableEq, Repr

/-- One use of the copy-unit port (42_hooks.md R104): cp_len, and lanes 0 to cp_len − 1 of cp_old, cp_src, cp_dst. -/
structure CopyUse where
  len : Nat
  old : List Byte
  src : List Byte
  dst : List Byte
  deriving DecidableEq, Repr

/-- The nine registers of 10_state.md R21. -/
structure Regs where
  cap : Nat
  esize : Nat
  base : Nat
  head : Nat
  tail : Nat
  count : Nat
  copyEn : Bool
  printEn : Bool
  rdata : List Byte
  deriving DecidableEq, Repr

/-- The reset values of R21 and R131: every register 0. -/
def Regs.reset (c : Params) : Regs :=
  { cap := 0, esize := 0, base := 0, head := 0, tail := 0, count := 0, copyEn := false, printEn := false
    rdata := zeros c.emax }

/-- All that one command does, settled when it is accepted: its storage transactions in order (R45), its use of the
copy unit, the registers after it, its trace event and its one response (R61). -/
structure Plan where
  regs : Regs
  txns : List Txn
  copyUse : Option CopyUse
  trace : Option TraceEvent
  rsp : Response
  deriving DecidableEq, Repr

/-- A command in progress (R34: the phase, "along with whatever the implementation needs to sequence storage
transactions"). -/
structure Busy where
  /-- The accepted command. -/
  instr : Instr
  /-- The bytes of the command's slot as the command reads them. -/
  seen : List Byte
  /-- How many of its storage transactions are performed. -/
  done : Nat
  /-- Its next transaction is a read whose request has transferred and whose bytes are not yet returned (R43). -/
  awaiting : Bool
  /-- Another agent accessed the buffer's block during it (R51). -/
  raced : Bool
  deriving DecidableEq, Repr

/-- The internal phase register (R34). -/
inductive Phase where
  | idle
  | busy (b : Busy)
  deriving DecidableEq, Repr

/-- What the platform and the other agents can do between or during commands. DESIGN CHOICE of form, log 6. -/
inductive EnvEvent where
  /-- `rst true`: a rising edge with rst = 1 (R131, R133). `rst false`: rst is released. -/
  | rst (level : Bool)
  /-- The level of m_ready from now on: the storage memory accepts requests, or does not (R43, R139). -/
  | mReady (level : Bool)
  /-- The level of m_rvalid from now on: the storage memory returns read bytes, or does not (R43, R139). -/
  | mRvalid (level : Bool)
  /-- The level of cmd_valid from now on: the host presents its next command, or none (R56, R60). -/
  | cmdValid (level : Bool)
  /-- A rising edge of clk, with rst and cmd_valid as they stand. -/
  | edge
  /-- Another agent reads this storage byte (R51). -/
  | agentRead (a : Nat)
  /-- Another agent writes this storage byte (R51). -/
  | agentWrite (a : Nat) (b : Byte)
  /-- The host puts another command in the place of its next one, presented or not (R135 duty 1, U12). -/
  | changeCommand (w : Nat)
  /-- A second host drives the command port (R124, U2). -/
  | secondHost (w : Nat)
  deriving DecidableEq, Repr

/-- The whole machine. -/
structure State where
  /-- The configuration (R8); no step changes it (R37). The model's own field, log 1. -/
  cfg : Params
  /-- The registers (R21). -/
  regs : Regs
  /-- The phase register (R34). -/
  phase : Phase
  /-- The storage memory (R38): the bytes that differ from STORAGE0, by address, rising. -/
  mem : List Host.Cell
  /-- The level of the rst input (R131). -/
  rst : Bool
  /-- The level of the m_ready input (R43). -/
  mReady : Bool
  /-- The level of the m_rvalid input (R43). -/
  mRvalid : Bool
  /-- The level of the cmd_valid input (R56): the first of `cmds` is presented. -/
  cmdValid : Bool
  /-- The command words the host presents or will present, oldest first (R20, R56, R58). Log 5. -/
  cmds : List Nat
  /-- What the platform and the other agents do before the next command is taken, oldest first. Log 6. -/
  env : List EnvEvent
  /-- The response port as the last step left it: `none` is rsp_valid = 0 (R61). -/
  rsp : Option Response
  /-- The trace port as the last step left it: `none` is tr_valid = 0 (R103). -/
  trace : Option TraceEvent
  /-- The storage transactions of the command the last step completed, in order (R45). -/
  bus : List Txn
  /-- The copy-unit port in the command the last step completed (R104). -/
  copyUse : Option CopyUse
  /-- How many free values have been drawn. The model's own field. -/
  draws : Nat
  deriving DecidableEq, Repr

/-- The one way the machine stops. The RBFC itself has no traps and no faults (60_exceptions.md R111, R116). -/
inductive Fault where
  /-- Raised by `step` when a command waits for a storage transaction that the storage memory does not accept (m_ready)
  or does not answer (m_rvalid), and nothing further is to happen: "the controller stays busy, a hang. The model has no
  step for that command until the storage answers" (U14, R139). Safe: the model stops where the hardware waits for ever. -/
  | storageNeverAnswers
  deriving DecidableEq, Repr

/-- What the model refuses. -/
inductive Refusal where
  /-- Raised by `exec` for an instruction without a meaning; no arm does. Safe. -/
  | notModelled (mnemonic : String)
  /-- Raised by `step` and by the event `edge` when the host's word has bits the command ports do not have (R58).
  Safe. -/
  | notACommandWord (e : DecodeError)
  /-- Raised by the event `changeCommand` when the host changes a command that waits for cmd_ready: "which command was
  accepted is unknown" (R135), treatment `refuse` (U12). Safe. -/
  | commandChangedWhileWaiting
  /-- Raised by the event `cmdValid false` when the host drops cmd_valid before acceptance (R135 duty 1), treatment
  `refuse` (U12). Safe. -/
  | commandDroppedWhileWaiting
  /-- Raised by the event `secondHost`: "the command port has one host", treatment `refuse` (U2, R124). Safe. -/
  | secondHost
  deriving DecidableEq, Repr

/-- The machine of configuration c right after reset (R131), the storage holding STORAGE0 (R38): rst just released, the
host and the platform silent. -/
def State.resetOf (c : Params) : State :=
  { cfg := c, regs := Regs.reset c, phase := .idle, mem := [], rst := false, mReady := true, mRvalid := true,
    cmdValid := false, cmds := [], env := [], rsp := none, trace := none, bus := [], copyUse := none, draws := 0 }

/-- The machine right after reset, in the example configuration of R10 (DESIGN CHOICE, log 1). -/
def State.reset : State := State.resetOf .exampleConfig

end Sys2Proof.Machine
end

