-- ==== Sys2Proof/Machine/Operands.lean ====
section
/-! DEFINITION. Operand forms: register widths (00_scope.md R8, R11), the modular increment (R12), byte lanes (R13),
the copy unit's function (R16) and the slot address (20_memory.md R40). -/

namespace Sys2Proof.Machine

/-- A value on ADDR_W bits (R11). -/
def addrBits (c : Params) (v : Nat) : Nat := v % 2 ^ c.addrW

/-- A value on CAP_W bits (R11). -/
def capBits (c : Params) (v : Nat) : Nat := v % 2 ^ c.capW

/-- A value on ESZ_W bits (R11). -/
def esizeBits (c : Params) (v : Nat) : Nat := v % 2 ^ c.eszW

/-- `inc(x) = if x + 1 == CAP then 0 else x + 1`, on CAP_W bits (R12). -/
def inc (c : Params) (r : Regs) (x : Nat) : Nat := if x + 1 = r.cap then 0 else capBits c (x + 1)

/-- `lanes(d, n)`: the bytes on lanes 0 to n − 1 of a bus (R13). -/
def lanes (d : List Byte) (n : Nat) : List Byte := (List.range n).map fun k => d.getD k 0

/-- `set_lanes(d, n, b)`: d with lanes 0 to n − 1 replaced by the bytes of b, the other lanes unchanged (R13). -/
def setLanes (d : List Byte) (n : Nat) (b : List Byte) : List Byte :=
  (List.range d.length).map fun k => if k < n then b.getD k 0 else d.getD k 0

/-- COPY_FN(n, old, src) (R16, R105): what the copy unit drives on lanes 0 to n − 1 of cp_dst (R104). -/
def copyFn (c : Params) (n : Nat) (old src : List Byte) : List Byte :=
  match c.copyTable.find? fun row => row.len == n && row.old.all (· == old) && row.src == src with
  | some row => lanes row.dst n
  | none => lanes src n

/-- `slot_addr(i) = (BASE + i * ESIZE) mod 2^ADDR_W` (R40). -/
def slotAddr (c : Params) (r : Regs) (i : Nat) : Nat := addrBits c (r.base + i * r.esize)

end Sys2Proof.Machine
end

