-- ==== Sys2Proof/Machine/Flags.lean ====
section
/-! DEFINITION. The two status flags (10_state.md R31), the numeric result codes (60_exceptions.md R112), and the
outputs driven continuously: the status outputs (R32) and cmd_ready (30_encoding.md R60). -/

namespace Sys2Proof.Machine

/-- FULL = (COUNT == CAP) (R31). -/
def full (r : Regs) : Bool := r.count == r.cap

/-- EMPTY = (COUNT == 0) (R31). -/
def empty (r : Regs) : Bool := r.count == 0

/-- rsp_code, two bits (R112). -/
def ResultCode.bits : ResultCode → BitVec 2
  | .ok => 0
  | .invalidArgument => 1
  | .full => 2
  | .empty => 3

/-- tr_kind, one bit: 0 for ENQ, 1 for DEQ (R103). -/
def TraceKind.bit : TraceKind → BitVec 1
  | .enq => 0
  | .deq => 1

/-- The status outputs of R32, by their port names. -/
structure StatusOutputs where
  stCap : Nat
  stEsize : Nat
  stBase : Nat
  stHead : Nat
  stTail : Nat
  stCount : Nat
  stCopyEn : Bool
  stPrintEn : Bool
  stFull : Bool
  stEmpty : Bool
  rdData : List Byte
  deriving DecidableEq, Repr

/-- The status outputs, driven continuously from the registers (R32); between steps they show the state the last
completed command left (R137). -/
def statusOutputs (s : State) : StatusOutputs :=
  { stCap := s.regs.cap, stEsize := s.regs.esize, stBase := s.regs.base, stHead := s.regs.head, stTail := s.regs.tail
    stCount := s.regs.count, stCopyEn := s.regs.copyEn, stPrintEn := s.regs.printEn, stFull := full s.regs
    stEmpty := empty s.regs, rdData := s.regs.rdata }

/-- `cmd_ready` is 1 exactly when the controller is idle: reset is not asserted, and no accepted command is still
waiting for its response (R60). -/
def cmdReady (s : State) : Bool :=
  match s.phase with
  | .idle => !s.rst
  | .busy _ => false

/-- rsp_valid (R61). -/
def rspValid (s : State) : Bool := s.rsp.isSome

/-- tr_valid (R103). -/
def trValid (s : State) : Bool := s.trace.isSome

end Sys2Proof.Machine
end

