-- ==== Sys2Proof/Machine/Ops.lean ====
section
/-! DEFINITION. The shared operations: the storage memory and its two primitives (00_scope.md R14, 20_memory.md R38 to
R48), the trace and response primitives (R15), performing a transaction, and completing a command. The RBFC has no
traps (R116): what other machines do by taking an exception, it does by a response code that changes nothing
(`answerPlan`, R111, R114). -/

namespace Sys2Proof.Machine

/-- The byte a list of cells gives an address, if it lists it. -/
def readCell : List Host.Cell → Nat → Option Byte
  | [], _ => none
  | (a', b) :: t, a => if a' = a then some b else readCell t a

/-- The STORAGE0 byte at an address (R8, R38): what an unlisted address reads as. -/
def storage0At (c : Params) (a : Nat) : Byte := (readCell c.storage0 a).getD 0

/-- Read one byte: "the value of the last write to that byte, or its STORAGE0 value if there was none" (R48). -/
def Memory.read (c : Params) (m : List Host.Cell) (a : Nat) : Byte := (readCell m a).getD (storage0At c a)

/-- List a byte at its place by address. -/
def Memory.put (a : Nat) (b : Byte) : List Host.Cell → List Host.Cell
  | [] => [(a, b)]
  | (a', b') :: t => if a < a' then (a, b) :: (a', b') :: t else if a = a' then (a, b) :: t else (a', b') :: put a b t

/-- Unlist an address. -/
def Memory.drop (a : Nat) (m : List Host.Cell) : List Host.Cell := m.filter fun x => x.1 != a

/-- Write one byte, keeping the canonical form: a byte equal to STORAGE0's is not listed. -/
def Memory.write (c : Params) (m : List Host.Cell) (a : Nat) (b : Byte) : List Host.Cell :=
  if b = storage0At c a then Memory.drop a m else Memory.put a b m

/-- The canonical form: addresses strictly rising and inside the address space (R38), no byte equal to STORAGE0's. -/
abbrev Memory.wf (c : Params) (m : List Host.Cell) : Prop :=
  (m.map Prod.fst).Pairwise (· < ·) ∧ ∀ x ∈ m, x.1 < 2 ^ c.addrW ∧ x.2 ≠ storage0At c x.1

/-- `MemRead(a, n)`: byte k from address (a + k) mod 2^ADDR_W (R14). -/
def memRead (c : Params) (m : List Host.Cell) (a n : Nat) : List Byte :=
  (List.range n).map fun k => Memory.read c m (addrBits c (a + k))

/-- Write bytes at consecutive addresses mod 2^ADDR_W, the first at a. -/
def writeFrom (c : Params) (m : List Host.Cell) (a : Nat) : List Byte → List Host.Cell
  | [] => m
  | b :: bs => writeFrom c (Memory.write c m (addrBits c a) b) (a + 1) bs

/-- The byte of one write transaction that lands where byte k goes. A transaction no longer than the address space
puts one byte on each address, its own; in a longer one the bytes k, k + 2^ADDR_W, … meet on one address and the spec
gives no order among them: which one lands is a free choice (log 10). -/
def landing (c : Params) (d : Nat) (bs : List Byte) : List Byte :=
  if bs.length ≤ 2 ^ c.addrW then bs
  else (List.range bs.length).map fun k =>
    let j := addrBits c k
    bs.getD (j + 2 ^ c.addrW * (Config.lastLane (d + j) % ((bs.length - j + 2 ^ c.addrW - 1) / 2 ^ c.addrW))) 0

/-- `MemWrite(a, n, b)`: byte k of b to address (a + k) mod 2^ADDR_W (R14); d is the draw it may need. -/
def memWrite (c : Params) (d : Nat) (m : List Host.Cell) (a : Nat) (bs : List Byte) : List Host.Cell :=
  writeFrom c m a (landing c d bs)

/-- How many draws a write of n bytes takes: none unless it is longer than the address space. -/
def landingDraws (c : Params) (n : Nat) : Nat := if n ≤ 2 ^ c.addrW then 0 else 2 ^ c.addrW

/-- Draw n free bytes (93_implementation_defined.md, treatment `any value`). -/
def freeBytes (d n : Nat) : List Byte := (List.range n).map fun k => Config.freeByte (d + k)

/-- `MemRead` as a transaction with the bytes it returns; none for n = 0 (R14, R43). -/
def readTxns (a n : Nat) (data : List Byte) : List Txn := if n = 0 then [] else [⟨false, a, n, data⟩]

/-- `MemWrite` as a transaction; none for n = 0 (R14, R43). -/
def writeTxns (a n : Nat) (data : List Byte) : List Txn := if n = 0 then [] else [⟨true, a, n, data⟩]

/-- Perform one transaction at the storage memory (R43, R48): a write stores its bytes, a read changes nothing. -/
def performTxn (s : State) (t : Txn) : State :=
  if t.we then
    { s with mem := memWrite s.cfg s.draws s.mem t.addr t.data, draws := s.draws + landingDraws s.cfg t.data.length }
  else s

/-- Perform transactions in their order (R47). -/
def performAll (s : State) (ts : List Txn) : State := ts.foldl performTxn s

/-- The final edge of a command (R137): its registers take their new values, and its response and its trace event stand
on their ports; the controller is idle. -/
def commit (p : Plan) (s : State) : State :=
  { s with regs := p.regs, phase := .idle, rsp := some p.rsp, trace := p.trace, bus := p.txns, copyUse := p.copyUse }

/-- A whole command as one atomic step (R6): every transaction performed, then the final edge (R47). -/
def carryOut (p : Plan) (s : State) : State := commit p (performAll s p.txns)

/-- `respond(code, flag)` with nothing else done (R15): no register written, no transaction, no trace event, no use of
the copy unit (R114). -/
def answerPlan (r : Regs) (code : ResultCode) (flag : Bool) : Plan :=
  { regs := r, txns := [], copyUse := none, trace := none, rsp := ⟨code, flag⟩ }

/-- `trace(kind, elem, HEAD, TAIL, COUNT)` while PRINT_EN = 1 (R15, R103): the element's bytes in lanes 0 to ESIZE − 1,
the other lanes 0, and the indices after the command. -/
def traceOf (c : Params) (r after : Regs) (kind : TraceKind) (elem : List Byte) : Option TraceEvent :=
  if r.printEn then
    some { kind := kind, len := r.esize, elem := setLanes (zeros c.emax) r.esize elem, head := after.head
           tail := after.tail, count := after.count }
  else none

/-- The ports carry nothing: rsp_valid = tr_valid = m_valid = 0 and the copy unit is not in use. -/
def quiet (s : State) : State := { s with rsp := none, trace := none, bus := [], copyUse := none }

/-- The reference latency of R138, for L cycles a transaction. Non-normative: nothing depends on it. -/
def referenceLatency (p : Plan) (cycles : Nat) : Nat := 1 + p.txns.length * cycles

end Sys2Proof.Machine
end

