-- ==== Sys2Proof/Machine/Hooks.lean ====
section
/-! DEFINITION. SETCOPY and SETPRINT (42_hooks.md R101, R102). -/

namespace Sys2Proof.Machine

/-- SETCOPY (R101): COPY_EN <- P, always OK. -/
def planSetcopy (r : Regs) (p : Bool) : Plan := answerPlan { r with copyEn := p } .ok false

/-- SETCOPY, R101. -/
def execSetcopy (p : Bool) (s : State) : Host.Outcome State Fault Refusal :=
  .next (carryOut (planSetcopy s.regs p) s)

/-- SETPRINT (R102): PRINT_EN <- P, always OK. -/
def planSetprint (r : Regs) (p : Bool) : Plan := answerPlan { r with printEn := p } .ok false

/-- SETPRINT, R102. -/
def execSetprint (p : Bool) (s : State) : Host.Outcome State Fault Refusal :=
  .next (carryOut (planSetprint s.regs p) s)

end Sys2Proof.Machine
end

