-- ==== Sys2Proof/Machine/InitQuery.lean ====
section
/-! DEFINITION. INIT, QFULL and QEMPTY (40_init_queries.md R76 to R83). -/

namespace Sys2Proof.Machine

/-- INIT (R76): with P = 0 it fails INVALID_ARGUMENT and writes nothing (R77); with P = 1 it writes BASE, CAP and ESIZE
and clears HEAD, TAIL, COUNT, COPY_EN and PRINT_EN, RDATA unchanged, no storage transaction, no trace event (R78). -/
def planInit (c : Params) (r : Regs) (p : Bool) (base cap esize : Nat) : Plan :=
  if p then
    answerPlan
      { r with base := addrBits c base, cap := capBits c cap, esize := esizeBits c esize, head := 0, tail := 0,
               count := 0, copyEn := false, printEn := false } .ok false
  else answerPlan r .invalidArgument false

/-- INIT, R76 to R80. -/
def execInit (p : Bool) (base cap esize : Nat) (s : State) : Host.Outcome State Fault Refusal :=
  .next (carryOut (planInit s.cfg s.regs p base cap esize) s)

/-- QFULL (R81): always OK, rsp_flag = FULL. -/
def planQfull (r : Regs) : Plan := answerPlan r .ok (full r)

/-- QFULL, R81. -/
def execQfull (s : State) : Host.Outcome State Fault Refusal :=
  .next (carryOut (planQfull s.regs) s)

/-- QEMPTY (R82): always OK, rsp_flag = EMPTY. -/
def planQempty (r : Regs) : Plan := answerPlan r .ok (empty r)

/-- QEMPTY, R82. -/
def execQempty (s : State) : Host.Outcome State Fault Refusal :=
  .next (carryOut (planQempty s.regs) s)

end Sys2Proof.Machine
end

