-- ==== Sys2Proof/Machine/Reserved.lean ====
section
/-! DEFINITION. RSV, the reserved command (30_encoding.md R65). It runs: its response is defined (log 13). -/

namespace Sys2Proof.Machine

/-- RSV (R65): changes nothing, responds INVALID_ARGUMENT. -/
def planRsv (r : Regs) : Plan := answerPlan r .invalidArgument false

/-- RSV, R65. -/
def execRsv (s : State) : Host.Outcome State Fault Refusal :=
  .next (carryOut (planRsv s.regs) s)

end Sys2Proof.Machine
end

