-- ==== Sys2Proof/Machine/Transfer.lean ====
section
/-! DEFINITION. ENQ and DEQ (41_transfer.md R85 to R100). -/

namespace Sys2Proof.Machine

/-- The bytes ENQ's slot, slot TAIL, holds (R88: "the slot's current ESIZE bytes"). -/
def enqSlot (s : State) : List Byte := memRead s.cfg s.mem (slotAddr s.cfg s.regs s.regs.tail) s.regs.esize

/-- The bytes DEQ's slot, slot HEAD, holds (R93). -/
def deqSlot (s : State) : List Byte := memRead s.cfg s.mem (slotAddr s.cfg s.regs s.regs.head) s.regs.esize

/-- The bytes a storing ENQ stores (R88): WDATA's lanes, or what the copy unit makes of the slot's old bytes and them. -/
def storedBytes (c : Params) (r : Regs) (wdata old : List Byte) : List Byte :=
  if r.copyEn then copyFn c r.esize old (lanes wdata r.esize) else lanes wdata r.esize

/-- The bytes a removing DEQ with P = 1 copies out (R93): the slot's bytes, or what the copy unit makes of RDATA's old
lanes and them. -/
def copiedOut (c : Params) (r : Regs) (slot : List Byte) : List Byte :=
  if r.copyEn then copyFn c r.esize (lanes r.rdata r.esize) slot else slot

/-- The registers after a storing ENQ (R88). -/
def enqRegs (c : Params) (r : Regs) : Regs := { r with tail := inc c r r.tail, count := capBits c (r.count + 1) }

/-- The registers after a removing DEQ (R93, R94): with P = 0, RDATA is unchanged. -/
def deqRegs (c : Params) (r : Regs) (p : Bool) (slot : List Byte) : Regs :=
  { r with
    rdata := if p then setLanes r.rdata r.esize (copiedOut c r slot) else r.rdata
    head := inc c r r.head
    count := capBits c (r.count - 1) }

/-- ENQ (R85), `old` being the slot's bytes as the command reads them. P is tested before fullness (R87). -/
def planEnq (c : Params) (r : Regs) (p : Bool) (wdata old : List Byte) : Plan :=
  if p = false then answerPlan r .ok false
  else if full r then answerPlan r .full false
  else
    let a := slotAddr c r r.tail
    let v := storedBytes c r wdata old
    { regs := enqRegs c r
      txns := (if r.copyEn then readTxns a r.esize old else []) ++ writeTxns a r.esize v
      copyUse := if r.copyEn then some ⟨r.esize, old, lanes wdata r.esize, v⟩ else none
      trace := traceOf c r (enqRegs c r) .enq v
      rsp := ⟨.ok, false⟩ }

/-- ENQ, R85 to R90. -/
def execEnq (p : Bool) (wdata : List Byte) (s : State) : Host.Outcome State Fault Refusal :=
  .next (carryOut (planEnq s.cfg s.regs p wdata (enqSlot s)) s)

/-- DEQ (R91), `slot` being the slot's bytes as the command reads them. The slot is read only when P = 1 or
PRINT_EN = 1 (R93); it is cleared whatever P is (R95). -/
def planDeq (c : Params) (r : Regs) (p : Bool) (slot : List Byte) : Plan :=
  if empty r then answerPlan r .empty false
  else
    let a := slotAddr c r r.head
    { regs := deqRegs c r p slot
      txns := (if p || r.printEn then readTxns a r.esize slot else []) ++
              (if c.clearOnRemove then writeTxns a r.esize (zeros r.esize) else [])
      copyUse := if p && r.copyEn then some ⟨r.esize, lanes r.rdata r.esize, slot, copiedOut c r slot⟩ else none
      trace := traceOf c r (deqRegs c r p slot) .deq slot
      rsp := ⟨.ok, false⟩ }

/-- DEQ, R91 to R97. -/
def execDeq (p : Bool) (s : State) : Host.Outcome State Fault Refusal :=
  .next (carryOut (planDeq s.cfg s.regs p (deqSlot s)) s)

end Sys2Proof.Machine
end

