-- ==== Sys2Proof/Machine/Dispatch.lean ====
section
/-! DEFINITION. One arm for each command (30_encoding.md R59). -/

namespace Sys2Proof.Machine

def exec (i : Instr) (s : State) : Host.Outcome State Fault Refusal :=
  match i with
  | .init p base cap esize => Sys2Proof.Machine.execInit p base cap esize s
  | .qfull => Sys2Proof.Machine.execQfull s
  | .qempty => Sys2Proof.Machine.execQempty s
  | .enq p wdata => Sys2Proof.Machine.execEnq p wdata s
  | .deq p => Sys2Proof.Machine.execDeq p s
  | .setcopy p => Sys2Proof.Machine.execSetcopy p s
  | .setprint p => Sys2Proof.Machine.execSetprint p s
  | .rsv => Sys2Proof.Machine.execRsv s

end Sys2Proof.Machine
end

