-- ==== Sys2Proof/Machine/Environment.lean ====
section
/-! DEFINITION. What happens around and during commands: taking a command edge by edge, reset (70_reset_and_hazards.md
R131, R133), a storage memory that stalls (R139), other agents on the storage memory (20_memory.md R51), and the host's
duties (R135). `exec` never depends on any of it: "The clock and the handshakes only decide when a step happens. They
never decide what it does" (R6). -/

namespace Sys2Proof.Machine

/-- The plan of a command, given the bytes it reads from its slot. -/
def planOf (c : Params) (r : Regs) (seen : List Byte) : Instr → Plan
  | .init p base cap esize => planInit c r p base cap esize
  | .qfull => planQfull r
  | .qempty => planQempty r
  | .enq p wdata => planEnq c r p wdata seen
  | .deq p => planDeq c r p seen
  | .setcopy p => planSetcopy r p
  | .setprint p => planSetprint r p
  | .rsv => planRsv r

/-- The bytes of the slot a command works on (R45): slot TAIL for ENQ, slot HEAD for DEQ, no slot for the others. -/
def slotSeen (i : Instr) (s : State) : List Byte :=
  match i with
  | .init _ _ _ _ => []
  | .qfull => []
  | .qempty => []
  | .enq _ _ => enqSlot s
  | .deq _ => deqSlot s
  | .setcopy _ => []
  | .setprint _ => []
  | .rsv => []

/-- The plan of a command accepted in s. -/
def planAt (i : Instr) (s : State) : Plan := planOf s.cfg s.regs (slotSeen i s) i

/-- The plan of the command in progress. -/
def busyPlan (b : Busy) (s : State) : Plan := planOf s.cfg s.regs b.seen b.instr

/-- The transactions the command in progress has not performed, the one on the port first. -/
def pending (b : Busy) (s : State) : List Txn := (busyPlan b s).txns.drop b.done

/-- The signals of a transaction's request (R43): a read drives no m_wdata. -/
def Txn.request (t : Txn) : Txn := if t.we then t else { t with data := [] }

/-- The request on the storage port, `none` while m_valid = 0 (R43): the next transaction of the command in progress,
until it transfers; none while rst = 1 (R131), nor while a read that transferred waits for its bytes. -/
def portRequest (s : State) : Option Txn :=
  match s.phase with
  | .idle => none
  | .busy b => if s.rst || b.awaiting then none else (pending b s).head?.map Txn.request

/-- m_valid (R43). -/
def mValid (s : State) : Bool := (portRequest s).isSome

/-- A command is accepted (R60): from here the controller is busy with it. -/
def accept (i : Instr) (s : State) : State :=
  { quiet s with phase := .busy { instr := i, seen := slotSeen i s, done := 0, awaiting := false, raced := false } }

/-- Every byte of the slot the command in progress works on becomes a free value (U3, U11; DEDUCED, logs 8 and 9); a
command without storage transactions touches no slot. -/
def scrambleSlot (b : Busy) (s : State) : State :=
  match (busyPlan b s).txns.head? with
  | some t => { s with mem := writeFrom s.cfg s.mem t.addr (freeBytes s.draws t.len), draws := s.draws + t.len }
  | none => s

/-- What the command in progress does at its end: its plan; after a race, what it does given free bytes for its slot
(U3; DEDUCED, log 8), the transactions being those it performed. -/
def finalPlan (b : Busy) (s : State) : Plan :=
  if b.raced then
    { planOf s.cfg s.regs (freeBytes s.draws b.seen.length) b.instr with txns := (busyPlan b s).txns }
  else busyPlan b s

/-- The final edge of the command in progress; after a race the slot holds free values (U3). -/
def finalEdge (b : Busy) (s : State) : State :=
  if b.raced then commit (finalPlan b s) (scrambleSlot b { s with draws := s.draws + b.seen.length })
  else commit (finalPlan b s) s

/-- The storage memory, with m_ready and m_rvalid as they stand, performs a transaction at the edge at which it is
requested: it accepts it and, for a read, returns the bytes (R43). -/
def served (s : State) (t : Txn) : Bool := s.mReady && (t.we || s.mRvalid)

/-- The storage memory performs the next transaction of the command in progress at this edge: it returns the bytes of a
read that has transferred, or serves the request on the port (R43). m_rvalid always returns this command's own read: no
answer to a read that reset abandoned comes later (DESIGN CHOICE, log 20). -/
def performs (b : Busy) (s : State) (t : Txn) : Bool := if b.awaiting then s.mRvalid else served s t

/-- One clock edge of the command in progress (R43): its next transaction is performed, or the request of a read
transfers and its bytes are awaited, or nothing changes; with no transaction left, this is the final edge (R137). -/
def busyEdge (b : Busy) (s : State) : State :=
  match pending b s with
  | t :: _ =>
    if performs b s t then
      { performTxn s t with phase := .busy { b with done := b.done + 1, awaiting := false } }
    else if s.mReady && !b.awaiting then { s with phase := .busy { b with awaiting := true } }
    else s
  | [] => finalEdge b s

/-- With m_ready and m_rvalid as they stand, some transaction of the command in progress is never performed. -/
def hangs (b : Busy) (s : State) : Bool :=
  match pending b s with
  | t :: ts => !(performs b s t && ts.all (served s))
  | [] => false

/-- The rest of the command in progress, if the storage memory performs its transactions (R139); else the controller is
busy for ever (U14). -/
def finishBusy (b : Busy) (s : State) : Host.Outcome State Fault Refusal :=
  if hangs b s then .fault .storageNeverAnswers
  else .next (finalEdge b (performAll s (pending b s)))

/-- Reset abandons a command in progress (R133): performed writes stay; a write still on the port may or may not be
performed, and its slot's bytes are unknown. A read that transferred and awaits its bytes is dropped, and the storage
memory never answers it: the spec does not say (DESIGN CHOICE, log 20). -/
def abandon (s : State) : State :=
  match s.phase with
  | .idle => s
  | .busy b => if b.raced || (pending b s).head?.any Txn.we then scrambleSlot b s else s

/-- A rising edge with rst = 1 (R131): a command in progress is abandoned (R133), every register takes its reset value,
the phase is IDLE, the ports are quiet; the storage memory is not reset, but owes no bytes any more (DESIGN CHOICE,
log 20). -/
def resetEdge (s : State) : State := { quiet (abandon s) with regs := Regs.reset s.cfg, phase := .idle }

/-- Whether an address is one of the n addresses from `first`, mod 2^ADDR_W. -/
def inRange (c : Params) (first n a : Nat) : Bool :=
  decide (addrBits c (addrBits c a + (2 ^ c.addrW - addrBits c first)) < n)

/-- Whether an address lies in the buffer's block, BASE to BASE + CAP × ESIZE − 1 mod 2^ADDR_W (R41). -/
def inBlock (c : Params) (r : Regs) (a : Nat) : Bool := inRange c r.base (r.cap * r.esize) a

/-- Another agent accesses address a. Between commands that has no further effect (R51); during a command that works on
a slot it is a race if a lies in the buffer's block or in that slot, and the bytes the command sees become free values
(U3) unless its read is performed already, for what stands on the storage port is held stable (R43). DEDUCED, logs 8,
17 and 19. -/
def agentAccess (a : Nat) (s : State) : State :=
  match s.phase with
  | .idle => s
  | .busy b =>
    match (busyPlan b s).txns.head? with
    | none => s
    | some t =>
      if inBlock s.cfg s.regs a || inRange s.cfg t.addr t.len a then
        { s with phase := .busy { b with seen := if b.done = 0 then freeBytes s.draws t.len else b.seen, raced := true },
                 draws := s.draws + t.len }
      else s

/-- One rising edge of clk (R131): a reset edge while rst = 1, else one edge of the command in progress, if any. -/
def clockEdge (s : State) : State :=
  if s.rst then resetEdge s
  else match s.phase with
    | .idle => s
    | .busy b => busyEdge b s

/-- One rising edge of clk with cmd_valid as it stands: the command presented is accepted if cmd_ready = 1 (R60), and
cmd_valid falls until the host presents another; else it waits, and the edge is the controller's. -/
def risingEdge (s : State) : Host.Outcome State Fault Refusal :=
  match s.cmdValid && cmdReady s, s.cmds with
  | true, w :: ws =>
    match decode s.cfg w with
    | .ok i => .next (accept i { s with cmds := ws, cmdValid := false })
    | .error e => .refused (.notACommandWord e)
  | _, _ => .next (clockEdge s)

/-- The host raises or drops cmd_valid. It presents a command only if it has one, and must not drop cmd_valid until
acceptance (R135 duty 1): refused (U12). -/
def setCmdValid (level : Bool) (s : State) : Host.Outcome State Fault Refusal :=
  if level then .next { s with cmdValid := !s.cmds.isEmpty }
  else if s.cmdValid then .refused .commandDroppedWhileWaiting
  else .next s

/-- The host puts another command in the place of its next one. While that one is presented with cmd_ready = 0 it must
hold the command inputs (R60, R135 duty 1): refused (U12). -/
def changeNext (w : Nat) (s : State) : Host.Outcome State Fault Refusal :=
  if s.cmdValid && !cmdReady s then .refused .commandChangedWhileWaiting
  else .next { s with cmds := w :: s.cmds.tail }

/-- One event of the platform or of another agent, in a state whose ports are quiet. -/
def environment (e : EnvEvent) (s : State) : Host.Outcome State Fault Refusal :=
  match e with
  | .rst true => .next { resetEdge s with rst := true }
  | .rst false => .next { s with rst := false }
  | .mReady level => .next { s with mReady := level }
  | .mRvalid level => .next { s with mRvalid := level }
  | .cmdValid level => setCmdValid level s
  | .edge => risingEdge s
  | .agentRead a => .next (agentAccess a s)
  | .agentWrite a b => .next { agentAccess a s with mem := Memory.write s.cfg s.mem (addrBits s.cfg a) b }
  | .changeCommand w => changeNext w s
  | .secondHost _ => .refused .secondHost

/-- A command with a transaction that the storage memory does not perform at once is accepted and waits (R139). -/
def mustWait (i : Instr) (s : State) : Bool := !(planAt i s).txns.all (served s)

/-- The host's next command, given to an idle controller, as one step (R6). -/
def runWord (w : Nat) (s : State) : Host.Outcome State Fault Refusal :=
  match decode s.cfg w with
  | .ok i => if mustWait i s then .next (accept i s) else exec i s
  | .error e => .refused (.notACommandWord e)

/-- The controller with no event outstanding: in reset every edge is a reset edge (R131); a command in progress is
finished; else the host's next command runs (R6, R47), and with none presented nothing changes. -/
def controller (s : State) : Host.Outcome State Fault Refusal :=
  if s.rst then .next (resetEdge s)
  else match s.phase with
    | .busy b => finishBusy b s
    | .idle =>
      match s.cmds with
      | [] => .next (quiet s)
      | w :: ws => runWord w { s with cmds := ws, cmdValid := false }

end Sys2Proof.Machine
end

