-- ==== Sys2Proof/Machine/Step.lean ====
section
/-! DEFINITION. One step: the next event of the platform if one is outstanding, else the controller's next command
(00_scope.md R6, R7). -/

namespace Sys2Proof.Machine

/-- One step of the machine. -/
def step (s : State) : Host.Outcome State Fault Refusal :=
  match s.env with
  | e :: es => environment e { quiet s with env := es }
  | [] => controller s

/-- The state with one command word, its higher bits 0, as all that the host will present, before an idle controller
out of reset whose storage memory accepts and answers: the very next step takes it. -/
def State.withFetchWord (s : State) (nbits w : Nat) : State :=
  { s with cmds := [w % 2 ^ nbits], env := [], rst := false, mReady := true, mRvalid := true, phase := .idle }

end Sys2Proof.Machine
end

