-- ==== Sys2Proof/Safety.lean ====
section
/-! DEFINITION. The terms claims use: the invariants of 10_state.md R35, the queue of 41_transfer.md R99, the host's
storage contract (20_memory.md R41), and runs of commands. -/

namespace Sys2Proof.Machine

/-- Every register fits its width (R21). -/
abbrev Regs.Fit (c : Params) (r : Regs) : Prop :=
  r.cap < 2 ^ c.capW ∧ r.esize < 2 ^ c.eszW ∧ r.base < 2 ^ c.addrW ∧ r.head < 2 ^ c.capW ∧ r.tail < 2 ^ c.capW ∧
  r.count < 2 ^ c.capW ∧ r.rdata.length = c.emax

/-- INV1 of R35. -/
abbrev Regs.Inv1 (r : Regs) : Prop := r.count ≤ r.cap

/-- INV2 of R35. -/
abbrev Regs.Inv2 (r : Regs) : Prop :=
  (0 < r.cap → r.head < r.cap ∧ r.tail < r.cap) ∧ (r.cap = 0 → r.head = 0 ∧ r.tail = 0 ∧ r.count = 0)

/-- INV4 of R35. -/
abbrev Regs.Inv4 (r : Regs) : Prop := 0 < r.cap → r.tail = (r.head + r.count) % r.cap

/-- The registers of a reachable state: they fit their widths and keep INV1, INV2 and INV4 (R35, R36). -/
abbrev Regs.Inv (c : Params) (r : Regs) : Prop := r.Fit c ∧ r.Inv1 ∧ r.Inv2 ∧ r.Inv4

/-- A command in progress is one of the configuration's, holds the bytes of one slot, has performed no more
transactions than it has, and awaits the bytes only of a read. -/
abbrev Busy.Inv (s : State) (b : Busy) : Prop :=
  b.instr.wf s.cfg = true ∧ b.seen.length = (slotSeen b.instr s).length ∧
  b.done ≤ (busyPlan b s).txns.length ∧
  (b.awaiting = true → (pending b s).head?.any (fun t => !t.we) = true)

/-- The invariant of the command in progress, if there is one. -/
def phaseInv (s : State) : Prop :=
  match s.phase with
  | .idle => True
  | .busy b => b.Inv s

/-- The invariant of the machine: a configuration the spec admits, R35, a canonical storage memory, a sound phase, and a
command to present while cmd_valid = 1. -/
def Sound (s : State) : Prop :=
  s.cfg.Ok ∧ s.regs.Inv s.cfg ∧ Memory.wf s.cfg s.mem ∧ phaseInv s ∧ (s.cmdValid = true → s.cmds ≠ [])

/-- The occupied slots, oldest first: (HEAD + i) mod CAP for 0 ≤ i < COUNT (R35 INV3). -/
def occupied (r : Regs) : List Nat := (List.range r.count).map fun i => (r.head + i) % r.cap

/-- The queue of a state, oldest first (R99): the bytes of its occupied slots. -/
def queue (s : State) : List (List Byte) :=
  (occupied s.regs).map fun i => memRead s.cfg s.mem (slotAddr s.cfg s.regs i) s.regs.esize

/-- Assumption (a) of R99: CAP × ESIZE ≤ 2^ADDR_W, so that the CAP slots are disjoint. -/
abbrev BlockFits (s : State) : Prop := s.regs.cap * s.regs.esize ≤ 2 ^ s.cfg.addrW

/-- What a command does to the queue by R76, R85, R91: INIT empties it, a storing ENQ appends, a removing DEQ drops the
oldest. `v` is the element a storing ENQ stores. -/
def queueAfter (i : Instr) (r : Regs) (v : List Byte) (q : List (List Byte)) : List (List Byte) :=
  match i with
  | .init p _ _ _ => if p then [] else q
  | .qfull => q
  | .qempty => q
  | .enq p _ => if p && !full r then q ++ [v] else q
  | .deq _ => q.tail
  | .setcopy _ => q
  | .setprint _ => q
  | .rsv => q

/-- The element a command would store, if it is an ENQ (R88). -/
def storedBy (i : Instr) (s : State) : List Byte :=
  match i with
  | .enq _ wdata => storedBytes s.cfg s.regs wdata (enqSlot s)
  | .init _ _ _ _ => []
  | .qfull => []
  | .qempty => []
  | .deq _ => []
  | .setcopy _ => []
  | .setprint _ => []
  | .rsv => []

/-- Run commands one after the other, as the host issues them (R47). -/
def runCommands : List Instr → State → Host.Outcome State Fault Refusal
  | [], s => .next s
  | i :: is, s =>
    match exec i s with
    | .next t => runCommands is t
    | .fault f => .fault f
    | .refused r => .refused r

/-- The state in which the command in progress completes, if nothing but its own transactions happens. -/
def completed (b : Busy) (s : State) : State := finalEdge b (performAll s (pending b s))

/-- Run the machine for k steps, as `Host.Core.run` does. -/
def runSteps : Nat → State → Host.Outcome State Fault Refusal
  | 0, s => .next s
  | k + 1, s =>
    match step s with
    | .next t => runSteps k t
    | .fault f => .fault f
    | .refused r => .refused r

/-- The read of one storage byte, as an agent between commands sees it (R48, R51). -/
def State.byteAt (s : State) (a : Nat) : Byte := Memory.read s.cfg s.mem (addrBits s.cfg a)

/-- Address x is one of the n bytes of a slot that starts at a (R40). -/
def InSlot (c : Params) (a n x : Nat) : Prop := ∃ k < n, addrBits c (a + k) = addrBits c x

/-- The command writes a slot: ENQ with P = 1 on a buffer that is not full (R85, "the storing path"). -/
def storing (i : Instr) (r : Regs) : Bool :=
  match i with
  | .enq p _ => p && !full r
  | .init _ _ _ _ => false
  | .qfull => false
  | .qempty => false
  | .deq _ => false
  | .setcopy _ => false
  | .setprint _ => false
  | .rsv => false

/-- The command removes an element: DEQ on a buffer that is not empty (R91, "the removing path"). -/
def removing (i : Instr) (r : Regs) : Bool :=
  match i with
  | .deq _ => !empty r
  | .init _ _ _ _ => false
  | .qfull => false
  | .qempty => false
  | .enq _ _ => false
  | .setcopy _ => false
  | .setprint _ => false
  | .rsv => false

/-- What `respond(code, flag)` and nothing else leaves (R15, R114). -/
def answered (s : State) (code : ResultCode) (flag : Bool) : State :=
  { s with phase := .idle, rsp := some ⟨code, flag⟩, trace := none, bus := [], copyUse := none }

end Sys2Proof.Machine
end

