-- ==== Sys2Proof/Certificates/Slice0/Obligations.lean ====
section
/-! DEFINITION. The statements about the RBFC, for the provers. Each docstring names the rule it formalises. -/

open Sys2Proof Sys2Proof.Machine

/-! ### Encoding -/

/-- R58, R59: every word of CW bits decodes, by its header alone, to the command of its row, each field read from the
bits R58 gives it and every other field dropped. -/
def Obligations.DecodeReadsTheFieldsOfTheWord : Prop :=
  ∀ (c : Params) (w : Nat), w < 2 ^ (4 + c.addrW + c.capW + c.eszW + 8 * c.emax) →
    decode c w = .ok
      (let p := w % 2 == 1
       match w / 2 % 8 with
       | 0 => .init p (w / 2 ^ 4 % 2 ^ c.addrW) (w / 2 ^ (4 + c.addrW) % 2 ^ c.capW)
                (w / 2 ^ (4 + c.addrW + c.capW) % 2 ^ c.eszW)
       | 1 => .qfull
       | 2 => .qempty
       | 3 => .enq p ((List.range c.emax).map fun k =>
                BitVec.ofNat 8 (w / 2 ^ (4 + c.addrW + c.capW + c.eszW + 8 * k)))
       | 4 => .deq p
       | 5 => .setcopy p
       | 6 => .setprint p
       | _ => .rsv)

/-- Decode of encode is the identity on every well-formed command, in every configuration. -/
def Obligations.DecodeOfEncodeIsTheCommand : Prop :=
  ∀ (c : Params) (i : Instr), i.wf c = true → decode c (encode c i) = .ok i

/-- R64: fields a command does not read have no effect: whatever a record carries in them, its word decodes to the
command of its OP, P and read fields. -/
def Obligations.IgnoredFieldsDoNotChangeTheCommand : Prop :=
  ∀ (c : Params) (m : Cmd), m.wf c = true →
    (m.op = 0 → decode c (pack c m) = .ok (.init m.p m.base m.cap m.esize)) ∧
    (m.op = 1 → decode c (pack c m) = .ok .qfull) ∧
    (m.op = 2 → decode c (pack c m) = .ok .qempty) ∧
    (m.op = 3 → decode c (pack c m) = .ok (.enq m.p m.wdata)) ∧
    (m.op = 4 → decode c (pack c m) = .ok (.deq m.p)) ∧
    (m.op = 5 → decode c (pack c m) = .ok (.setcopy m.p)) ∧
    (m.op = 6 → decode c (pack c m) = .ok (.setprint m.p)) ∧
    (m.op = 7 → decode c (pack c m) = .ok .rsv)

/-- Words of 95_test_vectors.md 2.8 (V-C1, V-C2, V-C3, V-C4, V-C6, V-C7, V-C8) and of P3 steps 5 and 6, in the example
configuration. -/
def Obligations.SpecWordsDecodeAsListed : Prop :=
  decode .exampleConfig 0x000000000000001810001 = .ok (.init true 0x1000 8 1) ∧
  decode .exampleConfig 0x000000000000308000007 = .ok (.enq true [0x61, 0, 0, 0, 0, 0, 0]) ∧
  decode .exampleConfig 0x038302820181008000007 = .ok (.enq true [1, 2, 3, 4, 5, 6, 7]) ∧
  decode .exampleConfig 0x000000000000000000009 = .ok (.deq true) ∧
  decode .exampleConfig 0x000000000000000000008 = .ok (.deq false) ∧
  decode .exampleConfig 0x000000000000000000005 = .ok .qempty ∧
  decode .exampleConfig 0x00000000000000000000B = .ok (.setcopy true) ∧
  decode .exampleConfig 0x00000000000000000000D = .ok (.setprint true) ∧
  decode .exampleConfig 0x00000000000000000000F = .ok .rsv

/-- R68, R69: the header and the fields each assembly line assembles to, the fields and lanes it does not write being 0;
DROP is DEQ.discard and NOP is QEMPTY. -/
def Obligations.AssemblyLinesGiveTheirHeaders : Prop :=
  ∀ (c : Params) (base cap esize : Nat) (data : List Byte),
    ((assemble c (.init base cap esize)).cmd c).header = 0b0001 ∧
    ((assemble c .initNull).cmd c).header = 0b0000 ∧
    ((assemble c .qfull).cmd c).header = 0b0010 ∧
    ((assemble c .qempty).cmd c).header = 0b0100 ∧
    ((assemble c (.enq data)).cmd c).header = 0b0111 ∧
    ((assemble c .enqNull).cmd c).header = 0b0110 ∧
    ((assemble c .deq).cmd c).header = 0b1001 ∧
    ((assemble c .deqDiscard).cmd c).header = 0b1000 ∧
    ((assemble c (.setcopy true)).cmd c).header = 0b1011 ∧
    ((assemble c (.setcopy false)).cmd c).header = 0b1010 ∧
    ((assemble c (.setprint true)).cmd c).header = 0b1101 ∧
    ((assemble c (.setprint false)).cmd c).header = 0b1100 ∧
    ((assemble c .rsv).cmd c).header = 0b1110 ∧
    assemble c .drop = assemble c .deqDiscard ∧ assemble c .nop = assemble c .qempty ∧
    (assemble c (.init base cap esize)).cmd c = ⟨0, true, base, cap, esize, List.replicate c.emax 0⟩ ∧
    (data.length ≤ c.emax → (assemble c (.enq data)).cmd c =
      ⟨3, true, 0, 0, 0, data ++ List.replicate (c.emax - data.length) 0⟩) ∧
    (∀ line, (∀ b n e, line ≠ .init b n e) → (∀ d, line ≠ .enq d) →
      let m := (assemble c line).cmd c
      m.base = 0 ∧ m.cap = 0 ∧ m.esize = 0 ∧ m.wdata = List.replicate c.emax 0)

/-! ### Steps and the command port -/

/-- R6, R60: a step of an idle controller out of reset, with no event outstanding, runs the decoded command on the
state without it, if the storage memory accepts and answers the transactions the command has, if any. The host's
commands stand in the model's own list, and that cmd_valid is 0 once the word is taken is the model's choice (log 5). -/
def Obligations.StepRunsTheDecodedCommand : Prop :=
  ∀ (s : State) (w : Nat) (ws : List Nat) (i : Instr),
    s.env = [] → s.rst = false → s.phase = .idle → s.cmds = w :: ws → decode s.cfg w = .ok i →
    (∀ x ∈ (planAt i s).txns, s.mReady = true ∧ (x.we = true ∨ s.mRvalid = true)) →
    step s = exec i { s with cmds := ws, cmdValid := false }

/-- R139: a command with a transaction that the storage memory does not accept, or a read that it does not answer, is
accepted, changes no register and no byte of storage yet, and waits; and if nothing further is to happen, that is a
hang, here a named stop (the model's form of it, log 7). That cmd_valid is 0 after the acceptance is the model's choice
(log 5): the spec leaves it to the host. -/
def Obligations.CommandWaitsForTheStorageMemory : Prop :=
  ∀ (s : State) (w : Nat) (ws : List Nat) (i : Instr),
    s.env = [] → s.rst = false → s.phase = .idle → s.cmds = w :: ws → decode s.cfg w = .ok i →
    (∃ x ∈ (planAt i s).txns, s.mReady = false ∨ (x.we = false ∧ s.mRvalid = false)) →
    ∃ t, step s = .next t ∧ t.regs = s.regs ∧ t.mem = s.mem ∧ t.cmds = ws ∧ t.cmdValid = false ∧ t.rsp = none ∧
      cmdReady t = false ∧ step t = .fault .storageNeverAnswers

/-- R60: cmd_ready is 1 exactly when reset is not asserted and no accepted command waits for its response; a rising edge
takes the command presented exactly when cmd_valid and cmd_ready are 1, and one presented while cmd_ready is 0 stays
presented. That cmd_valid is 0 after the acceptance is the model's choice (log 5): R60 leaves it to the host. -/
def Obligations.CommandTakenExactlyWhenReady : Prop :=
  ∀ (s : State) (es : List EnvEvent), s.env = .edge :: es →
    (cmdReady s = true ↔ s.rst = false ∧ s.phase = .idle) ∧
    (s.cmdValid = false ∨ cmdReady s = false →
      ∃ t, step s = .next t ∧ t.cmds = s.cmds ∧ t.cmdValid = s.cmdValid) ∧
    (∀ w ws i, s.cmdValid = true → cmdReady s = true → s.cmds = w :: ws → decode s.cfg w = .ok i →
      ∃ t, step s = .next t ∧ t.cmds = ws ∧ t.cmdValid = false ∧ t.env = es ∧ cmdReady t = false ∧ t.rsp = none ∧
        t.regs = s.regs ∧ t.mem = s.mem ∧ ∃ b, t.phase = .busy b ∧ b.instr = i)

/-- R6, R46, R47, R136: a command presented and accepted at one edge and given one edge for each of its transactions and
one more leaves exactly the state that the command as one atomic step leaves; none of the edges before the last shows a
response or changes a register. The edges are the model's reading of R43, R131 and R137 (log 15),
and that cmd_valid is 0 after the acceptance is the model's choice (log 5). -/
def Obligations.EdgeByEdgeIsTheAtomicCommand : Prop :=
  ∀ (s : State) (w : Nat) (ws : List Nat) (i : Instr) (es : List EnvEvent),
    s.rst = false → s.phase = .idle → s.mReady = true → s.mRvalid = true → s.cmds = w :: ws →
    decode s.cfg w = .ok i →
    (∀ k ≤ (planAt i s).txns.length,
      ∃ t, runSteps (2 + k)
        { s with env := .cmdValid true :: List.replicate ((planAt i s).txns.length + 2) .edge ++ es } = .next t ∧
        t.rsp = none ∧ t.regs = s.regs ∧ cmdReady t = false) ∧
    runSteps (2 + ((planAt i s).txns.length + 1))
      { s with env := .cmdValid true :: List.replicate ((planAt i s).txns.length + 2) .edge ++ es } =
      exec i { s with cmds := ws, cmdValid := false, env := es }

/-- R6, R138: the clock and the handshakes decide when a command completes and never what it does: while no other agent
interferes, an edge of a command in progress and a change of m_ready or m_rvalid either end the command in
the state its completion leaves, or leave it in progress with the same completion, no register changed, no response
shown. -/
def Obligations.LatencyNeverChangesTheResult : Prop :=
  ∀ (s : State) (b : Busy) (e : EnvEvent) (es : List EnvEvent), s.env = e :: es → s.rst = false →
    s.phase = .busy b → b.raced = false → (e = .edge ∨ ∃ level, e = .mReady level ∨ e = .mRvalid level) →
    ∃ t, step s = .next t ∧
      ((t.phase = .idle ∧ t = { completed b s with env := es }) ∨
       (∃ b', t.phase = .busy b' ∧ t.rsp = none ∧ t.regs = s.regs ∧
        completed b' { t with mReady := s.mReady, mRvalid := s.mRvalid } = { completed b s with env := es }))

/-- R43: m_valid is 1 with the next transaction's request until it transfers, which is at an edge with m_ready = 1; a
write is performed there; a read is performed when m_rvalid = 1 returns its bytes, at that edge or a later one, and
m_valid is 0 while it waits for them. That the bytes may return at the edge of the transfer is the model's reading of
R138's L ≥ 1 (log 15), and that they are this read's own even after a reset that abandoned another is the model's choice
(log 20). -/
def Obligations.TransactionsFollowTheStorageHandshake : Prop :=
  ∀ (s : State) (b : Busy) (x : Txn) (xs : List Txn) (es : List EnvEvent), s.env = .edge :: es → s.rst = false →
    s.phase = .busy b → pending b s = x :: xs →
    let next : Phase := .busy { b with done := b.done + 1, awaiting := false }
    (b.awaiting = false → mValid s = true ∧ portRequest s = some (if x.we then x else { x with data := [] })) ∧
    (b.awaiting = true → mValid s = false) ∧
    ∃ t, step s = .next t ∧ t.regs = s.regs ∧ t.rsp = none ∧
      (b.awaiting = false → s.mReady = true → x.we = true →
        t.phase = next ∧ t.mem = memWrite s.cfg s.draws s.mem x.addr x.data) ∧
      (b.awaiting = false → s.mReady = true → x.we = false → s.mRvalid = false →
        t.phase = .busy { b with awaiting := true } ∧ t.mem = s.mem ∧ mValid t = false) ∧
      (b.awaiting = false → s.mReady = true → x.we = false → s.mRvalid = true → t.phase = next ∧ t.mem = s.mem) ∧
      (b.awaiting = true → x.we = false → s.mRvalid = true → t.phase = next ∧ t.mem = s.mem) ∧
      (b.awaiting = true → s.mRvalid = false → t.phase = s.phase ∧ t.mem = s.mem ∧ mValid t = false) ∧
      (b.awaiting = false → s.mReady = false → t.phase = s.phase ∧ t.mem = s.mem ∧ portRequest t = portRequest s)

/-- R43: "The controller holds every request signal stable from the cycle it raises `m_valid` until that edge": whatever
happens but reset and the edge with m_ready = 1 at which it transfers, the request on the storage port stays as it is,
another agent's race included. -/
def Obligations.RequestIsHeldUntilItTransfers : Prop :=
  ∀ (s t : State) (r : Txn) (e : EnvEvent) (es : List EnvEvent), s.env = e :: es → portRequest s = some r →
    e ≠ .rst true → (e = .edge → s.mReady = false) → step s = .next t → portRequest t = some r

/-- R61: every command answers a next state, with exactly one response on the port. -/
def Obligations.EveryCommandResponds : Prop :=
  ∀ (i : Instr) (s : State), ∃ t r, exec i s = .next t ∧ t.rsp = some r

/-- R20, R37: no command changes which command comes next, nor the configuration, nor what the platform does. -/
def Obligations.NoCommandChangesWhatComesNext : Prop :=
  ∀ (i : Instr) (s t : State), exec i s = .next t →
    t.cmds = s.cmds ∧ t.cmdValid = s.cmdValid ∧ t.env = s.env ∧ t.cfg = s.cfg ∧ t.rst = s.rst ∧
    t.mReady = s.mReady ∧ t.mRvalid = s.mRvalid ∧ t.phase = .idle

/-- R37: no step changes the configuration. -/
def Obligations.NoStepChangesTheConfiguration : Prop :=
  ∀ (s t : State), step s = .next t → t.cfg = s.cfg

/-- R116, R139: the machine has no faults of its own: a step stops with a fault exactly when no event is outstanding,
reset is not asserted, and the command in progress has a transaction that, as m_ready and m_rvalid stand, is never
performed: the next one, requested or awaiting its bytes, or a later one (log 7). -/
def Obligations.OnlyAHangStopsTheMachine : Prop :=
  ∀ (s : State) (f : Fault), step s = .fault f ↔
    s.env = [] ∧ s.rst = false ∧ ∃ b x xs, s.phase = .busy b ∧ pending b s = x :: xs ∧
      ((b.awaiting = true ∧ s.mRvalid = false) ∨
       (b.awaiting = false ∧ (s.mReady = false ∨ (x.we = false ∧ s.mRvalid = false))) ∨
       ∃ y ∈ xs, s.mReady = false ∨ (y.we = false ∧ s.mRvalid = false))

/-- R58, R60, R135, and 93_implementation_defined.md U2 and U12 (logs 11 and 12, the model's treatment): what the host
may not do is refused by name: a word with bits the ports do not have, dropping cmd_valid before acceptance, another
command in the place of one that is presented while cmd_ready = 0, and a second host; and the host may present a
command, and may change one that is not presented or that cmd_ready = 1 will take. -/
def Obligations.HostBreachesAreRefused : Prop :=
  (∀ (s : State) (w : Nat) (ws : List Nat), s.env = [] → s.rst = false → s.phase = .idle → s.cmds = w :: ws →
    2 ^ (4 + s.cfg.addrW + s.cfg.capW + s.cfg.eszW + 8 * s.cfg.emax) ≤ w →
    step s = .refused (.notACommandWord .widerThanThePorts)) ∧
  (∀ (s : State) (w : Nat) (es : List EnvEvent), s.env = .secondHost w :: es → step s = .refused .secondHost) ∧
  (∀ (s : State) (es : List EnvEvent), s.env = .cmdValid false :: es →
    (s.cmdValid = true → step s = .refused .commandDroppedWhileWaiting) ∧
    (s.cmdValid = false → step s = .next { quiet s with env := es })) ∧
  (∀ (s : State) (es : List EnvEvent), s.env = .cmdValid true :: es → s.cmds ≠ [] →
    step s = .next { quiet s with env := es, cmdValid := true }) ∧
  (∀ (s : State) (w v : Nat) (ws : List Nat) (es : List EnvEvent), s.env = .changeCommand v :: es →
    s.cmds = w :: ws →
    (s.cmdValid = true → cmdReady s = false → step s = .refused .commandChangedWhileWaiting) ∧
    (s.cmdValid = false ∨ cmdReady s = true → step s = .next { quiet s with env := es, cmds := v :: ws }))

/-! ### INIT and the queries -/

/-- R78: INIT with P = 1 writes BASE, CAP and ESIZE from its fields, clears the indices, the count and both hooks, and
touches neither RDATA nor the storage memory; EMPTY becomes 1 and FULL becomes (F_CAP == 0). -/
def Obligations.InitPresentBuildsAnEmptyBuffer : Prop :=
  ∀ (base cap esize : Nat) (s : State), (Instr.init true base cap esize).wf s.cfg = true →
    exec (.init true base cap esize) s = .next
      { answered s .ok false with
        regs := { base := base, cap := cap, esize := esize, head := 0, tail := 0, count := 0, copyEn := false
                  printEn := false, rdata := s.regs.rdata } } ∧
    ∀ t, exec (.init true base cap esize) s = .next t →
      (statusOutputs t).stEmpty = true ∧ (statusOutputs t).stFull = (cap == 0)

/-- R77: INIT with P = 0 fails INVALID_ARGUMENT and writes no register, the hook bits included. -/
def Obligations.InitAbsentChangesNothing : Prop :=
  ∀ (base cap esize : Nat) (s : State),
    exec (.init false base cap esize) s = .next (answered s .invalidArgument false)

/-- R81: QFULL responds OK with the flag COUNT == CAP and changes nothing; the flag is 1 exactly when an ENQ with P = 1
would fail FULL. -/
def Obligations.QfullAnswersFull : Prop :=
  ∀ (s : State),
    exec .qfull s = .next (answered s .ok (decide (s.regs.count = s.regs.cap))) ∧
    ∀ wdata, s.regs.count = s.regs.cap ↔ ∃ t, exec (.enq true wdata) s = .next t ∧ t.rsp = some ⟨.full, false⟩

/-- R82: QEMPTY responds OK with the flag COUNT == 0 and changes nothing; the flag is 1 exactly when a DEQ would fail
EMPTY. -/
def Obligations.QemptyAnswersEmpty : Prop :=
  ∀ (s : State),
    exec .qempty s = .next (answered s .ok (decide (s.regs.count = 0))) ∧
    ∀ p, s.regs.count = 0 ↔ ∃ t, exec (.deq p) s = .next t ∧ t.rsp = some ⟨.empty, false⟩

/-- R83: after any command completes, QFULL's flag is st_full and QEMPTY's is st_empty. -/
def Obligations.QueriesAgreeWithTheStatusOutputs : Prop :=
  ∀ (i : Instr) (s t : State), exec i s = .next t →
    exec .qfull t = .next (answered t .ok (statusOutputs t).stFull) ∧
    exec .qempty t = .next (answered t .ok (statusOutputs t).stEmpty)

/-! ### ENQ -/

/-- R86, R87: P is tested first: ENQ with P = 0 responds OK and writes nothing, even when COUNT = CAP; with P = 1 and
COUNT = CAP it responds FULL and writes nothing. On the storing path CAP > 0 and TAIL < CAP. -/
def Obligations.EnqThatDoesNotStoreWritesNothing : Prop :=
  ∀ (wdata : List Byte) (s : State),
    exec (.enq false wdata) s = .next (answered s .ok false) ∧
    (s.regs.count = s.regs.cap → exec (.enq true wdata) s = .next (answered s .full false)) ∧
    (s.regs.Inv s.cfg → s.regs.count ≠ s.regs.cap → s.regs.count < s.regs.cap ∧ s.regs.tail < s.regs.cap)

/-- R88: a storing ENQ answers OK; TAIL becomes (TAIL + 1) mod CAP and COUNT one more, no other register changes; the
slot at TAIL receives lanes 0 to ESIZE − 1 of WDATA, or with COPY_EN = 1 what the copy unit makes of the slot's bytes
and them; every other byte of storage is unchanged. Where one write is longer than the address space, the byte at an
address is one of those that go there (the model's choice, log 10). -/
def Obligations.EnqStoresTheElementAtTail : Prop :=
  ∀ (wdata : List Byte) (s : State), s.cfg.Ok → s.regs.Inv s.cfg → wdata.length = s.cfg.emax →
    s.regs.count < s.regs.cap →
    let r := s.regs
    let a := (r.base + r.tail * r.esize) % 2 ^ s.cfg.addrW
    let src := wdata.take r.esize
    let v := if r.copyEn then copyFn s.cfg r.esize (memRead s.cfg s.mem a r.esize) src else src
    v.length = r.esize ∧
    ∃ t, exec (.enq true wdata) s = .next t ∧
      t = { s with
        regs := { r with tail := (r.tail + 1) % r.cap, count := r.count + 1 }, phase := .idle, mem := t.mem,
        draws := t.draws, rsp := some ⟨.ok, false⟩, trace := t.trace, bus := t.bus, copyUse := t.copyUse } ∧
      (r.esize ≤ 2 ^ s.cfg.addrW → ∀ k < r.esize, t.byteAt (a + k) = v.getD k 0) ∧
      (∀ k < r.esize, ∃ j < r.esize, (a + j) % 2 ^ s.cfg.addrW = (a + k) % 2 ^ s.cfg.addrW ∧
        t.byteAt (a + k) = v.getD j 0) ∧
      (∀ x, ¬ InSlot s.cfg a r.esize x → t.byteAt x = s.byteAt x)

/-! ### DEQ -/

/-- R92: DEQ on an empty buffer fails EMPTY, whatever P is, and writes nothing. On the removing path CAP > 0 and
HEAD < CAP. -/
def Obligations.DeqOnEmptyChangesNothing : Prop :=
  ∀ (p : Bool) (s : State),
    (s.regs.count = 0 → exec (.deq p) s = .next (answered s .empty false)) ∧
    (s.regs.Inv s.cfg → s.regs.count ≠ 0 → 0 < s.regs.cap ∧ s.regs.head < s.regs.cap)

/-- R93: a removing DEQ with P = 1 answers OK; HEAD becomes (HEAD + 1) mod CAP and COUNT one less; lanes 0 to ESIZE − 1
of RDATA receive the bytes of the slot at HEAD, or with COPY_EN = 1 what the copy unit makes of RDATA's lanes and them,
and the lanes above are unchanged; no other register changes. With CLEAR_ON_REMOVE the slot's bytes become 0, else no
byte of storage changes; bytes outside the slot never do (R95). -/
def Obligations.DeqCopiesTheElementAtHeadOut : Prop :=
  ∀ (s : State), s.cfg.Ok → s.regs.Inv s.cfg → 0 < s.regs.count →
    let r := s.regs
    let a := (r.base + r.head * r.esize) % 2 ^ s.cfg.addrW
    let slot := memRead s.cfg s.mem a r.esize
    let d := if r.copyEn then copyFn s.cfg r.esize (r.rdata.take r.esize) slot else slot
    ∃ t, exec (.deq true) s = .next t ∧
      t = { s with
        regs := { r with head := (r.head + 1) % r.cap, count := r.count - 1, rdata := d ++ r.rdata.drop r.esize },
        phase := .idle, mem := t.mem, draws := t.draws, rsp := some ⟨.ok, false⟩, trace := t.trace, bus := t.bus,
        copyUse := t.copyUse } ∧
      (∀ x, InSlot s.cfg a r.esize x → t.byteAt x = if s.cfg.clearOnRemove then 0 else s.byteAt x) ∧
      (∀ x, ¬ InSlot s.cfg a r.esize x → t.byteAt x = s.byteAt x)

/-- R94: a removing DEQ with P = 0 removes the element without copying it: RDATA is unchanged and the copy unit is not
used; HEAD, COUNT and the clearing are as for P = 1. -/
def Obligations.DeqDiscardLeavesRdata : Prop :=
  ∀ (s : State), s.cfg.Ok → s.regs.Inv s.cfg → 0 < s.regs.count →
    let r := s.regs
    let a := (r.base + r.head * r.esize) % 2 ^ s.cfg.addrW
    ∃ t, exec (.deq false) s = .next t ∧
      t = { s with
        regs := { r with head := (r.head + 1) % r.cap, count := r.count - 1 },
        phase := .idle, mem := t.mem, draws := t.draws, rsp := some ⟨.ok, false⟩, trace := t.trace, bus := t.bus,
        copyUse := none } ∧
      (∀ x, InSlot s.cfg a r.esize x → t.byteAt x = if s.cfg.clearOnRemove then 0 else s.byteAt x) ∧
      (∀ x, ¬ InSlot s.cfg a r.esize x → t.byteAt x = s.byteAt x)

/-- R95: CLEAR_ON_REMOVE is seen in no response, no register and no dequeued data: a command run with it and one run
without it, on the same state, leave the same registers, response, trace event and use of the copy unit; and the same
storage memory, but for a removing DEQ, which without it leaves the storage memory as it was. -/
def Obligations.ClearOnRemoveShowsOnlyInStorage : Prop :=
  ∀ (i : Instr) (s : State),
    ∃ t u, exec i { s with cfg := { s.cfg with clearOnRemove := true } } = .next t ∧
      exec i { s with cfg := { s.cfg with clearOnRemove := false } } = .next u ∧
      t.regs = u.regs ∧ t.rsp = u.rsp ∧ t.trace = u.trace ∧ t.copyUse = u.copyUse ∧
      (removing i s.regs = false → t.mem = u.mem) ∧ (removing i s.regs = true → u.mem = s.mem)

/-! ### SETCOPY, SETPRINT, RSV -/

/-- R101: SETCOPY sets COPY_EN to P, responds OK and changes nothing else, in every state. -/
def Obligations.SetcopyWritesCopyEn : Prop :=
  ∀ (p : Bool) (s : State),
    exec (.setcopy p) s = .next { answered s .ok false with regs := { s.regs with copyEn := p } }

/-- R102: SETPRINT sets PRINT_EN to P, responds OK and changes nothing else, in every state. -/
def Obligations.SetprintWritesPrintEn : Prop :=
  ∀ (p : Bool) (s : State),
    exec (.setprint p) s = .next { answered s .ok false with regs := { s.regs with printEn := p } }

/-- R65: RSV changes no state, issues nothing, and responds INVALID_ARGUMENT with flag 0. -/
def Obligations.RsvChangesNothing : Prop :=
  ∀ (s : State), exec .rsv s = .next (answered s .invalidArgument false)

/-! ### Ports -/

/-- R45: the storage transactions of every command, in order; each is omitted when ESIZE = 0, and the slot is the one
before TAIL or HEAD is updated. The storage memory afterwards is the one they leave. -/
def Obligations.TransactionsAreThoseOfTheTable : Prop :=
  ∀ (i : Instr) (s t : State), exec i s = .next t →
    let r := s.regs
    let c := s.cfg
    let aT := (r.base + r.tail * r.esize) % 2 ^ c.addrW
    let aH := (r.base + r.head * r.esize) % 2 ^ c.addrW
    let slotT := memRead c s.mem aT r.esize
    let slotH := memRead c s.mem aH r.esize
    let full : Bool := r.count == r.cap
    let empty : Bool := r.count == 0
    t.mem = (performAll s t.bus).mem ∧
    t.bus =
      if r.esize = 0 then []
      else match i with
        | .enq true wdata =>
          if full then []
          else if r.copyEn then
            [⟨false, aT, r.esize, slotT⟩, ⟨true, aT, r.esize, copyFn c r.esize slotT (lanes wdata r.esize)⟩]
          else [⟨true, aT, r.esize, lanes wdata r.esize⟩]
        | .deq p =>
          if empty then []
          else (if p || r.printEn then [⟨false, aH, r.esize, slotH⟩] else []) ++
               (if c.clearOnRemove then [⟨true, aH, r.esize, List.replicate r.esize 0⟩] else [])
        | _ => []

/-- R43, R139: at most two transactions, each of 1 to 2^ESZ_W − 1 bytes at an address of ADDR_W bits, with as many data
bytes as its length. -/
def Obligations.TransactionsFitTheStoragePort : Prop :=
  ∀ (i : Instr) (s t : State), s.regs.Inv s.cfg → exec i s = .next t →
    t.bus.length ≤ 2 ∧
    ∀ x ∈ t.bus, 1 ≤ x.len ∧ x.len ≤ 2 ^ s.cfg.eszW - 1 ∧ x.addr < 2 ^ s.cfg.addrW ∧ x.data.length = x.len

/-- R103 (R89, R96): a trace event is emitted exactly by a storing ENQ and a removing DEQ while PRINT_EN = 1; it
carries the kind, ESIZE, the stored or removed bytes with zeros above them, and HEAD, TAIL and COUNT after the
command. -/
def Obligations.TraceEventsAreThoseOfTheRule : Prop :=
  ∀ (i : Instr) (s t : State), s.cfg.Ok → s.regs.Inv s.cfg → exec i s = .next t →
    let r := s.regs
    let event (kind : TraceKind) (bytes : List Byte) : TraceEvent :=
      { kind := kind, len := r.esize, elem := bytes ++ List.replicate (s.cfg.emax - r.esize) 0
        head := t.regs.head, tail := t.regs.tail, count := t.regs.count }
    t.trace =
      if r.printEn && storing i r then some (event .enq (storedBy i s))
      else if r.printEn && removing i r then some (event .deq (deqSlot s))
      else none

/-- R104: the copy unit is used exactly by a storing ENQ with COPY_EN = 1, on the slot's bytes and WDATA's, and by a
removing DEQ with P = 1 and COPY_EN = 1, on RDATA's bytes and the slot's; it drives COPY_FN of them. -/
def Obligations.CopyUnitIsUsedOnlyByTransfers : Prop :=
  ∀ (i : Instr) (s t : State), exec i s = .next t →
    let r := s.regs
    let use (old src : List Byte) : CopyUse := ⟨r.esize, old, src, copyFn s.cfg r.esize old src⟩
    t.copyUse =
      match i with
      | .enq true wdata =>
        if r.copyEn && !full r then some (use (enqSlot s) (lanes wdata r.esize)) else none
      | .deq true => if r.copyEn && !empty r then some (use (lanes r.rdata r.esize) (deqSlot s)) else none
      | _ => none

/-- R104: with no copy unit (cp_dst tied to cp_src), SETCOPY on behaves as a raw copy: COPY_EN changes neither the
registers nor a byte of storage that ENQ and DEQ leave. The empty table stands for that platform (log 4). -/
def Obligations.WithoutACopyUnitCopyEnIsARawCopy : Prop :=
  ∀ (i : Instr) (s : State), s.cfg.copyTable = [] →
    ∃ t u, exec i { s with regs := { s.regs with copyEn := true } } = .next t ∧
      exec i { s with regs := { s.regs with copyEn := false } } = .next u ∧
      t.mem = u.mem ∧ t.rsp = u.rsp ∧ t.trace = u.trace ∧ { t.regs with copyEn := u.regs.copyEn } = u.regs

/-- R102, R29: no response, register or storage value depends on PRINT_EN. -/
def Obligations.PrintEnShowsOnlyOnThePorts : Prop :=
  ∀ (i : Instr) (s : State),
    ∃ t u, exec i { s with regs := { s.regs with printEn := true } } = .next t ∧
      exec i { s with regs := { s.regs with printEn := false } } = .next u ∧
      t.mem = u.mem ∧ t.rsp = u.rsp ∧ t.copyUse = u.copyUse ∧ { t.regs with printEn := u.regs.printEn } = u.regs

/-! ### Result codes and frames over all commands -/

/-- R113: the codes each command can respond with; rsp_flag is 1 only for a query (R62). -/
def Obligations.EachCommandRespondsWithItsCodes : Prop :=
  ∀ (i : Instr) (s t : State) (r : Response), exec i s = .next t → t.rsp = some r →
    match i with
    | .init _ _ _ _ => (r.code = .ok ∨ r.code = .invalidArgument) ∧ r.flag = false
    | .qfull => r.code = .ok
    | .qempty => r.code = .ok
    | .enq _ _ => (r.code = .ok ∨ r.code = .full) ∧ r.flag = false
    | .deq _ => (r.code = .ok ∨ r.code = .empty) ∧ r.flag = false
    | .setcopy _ => r.code = .ok ∧ r.flag = false
    | .setprint _ => r.code = .ok ∧ r.flag = false
    | .rsv => r.code = .invalidArgument ∧ r.flag = false

/-- R112: the numeric values of the result codes. -/
def Obligations.ResultCodesAreNumberedZeroToThree : Prop :=
  ResultCode.ok.bits = 0 ∧ ResultCode.invalidArgument.bits = 1 ∧ ResultCode.full.bits = 2 ∧ ResultCode.empty.bits = 3

/-- R114: a command that responds INVALID_ARGUMENT, FULL or EMPTY writes no register and no storage byte, issues no
transaction, emits no trace event and uses no copy unit; nor does an ENQ with P = 0, which responds OK. -/
def Obligations.FailuresAreAtomic : Prop :=
  (∀ (i : Instr) (s t : State) (r : Response), exec i s = .next t → t.rsp = some r → r.code ≠ .ok →
    t = answered s r.code false) ∧
  (∀ (wdata : List Byte) (s : State), exec (.enq false wdata) s = .next (answered s .ok false))

/-- R21: each register is written only by the commands of its row. -/
def Obligations.RegistersAreWrittenOnlyByTheirCommands : Prop :=
  ∀ (i : Instr) (s t : State), exec i s = .next t →
    let isInit := ∃ b c e, i = .init true b c e
    (¬ isInit → t.regs.cap = s.regs.cap ∧ t.regs.esize = s.regs.esize ∧ t.regs.base = s.regs.base) ∧
    (¬ isInit → removing i s.regs = false → t.regs.head = s.regs.head) ∧
    (¬ isInit → storing i s.regs = false → t.regs.tail = s.regs.tail) ∧
    (¬ isInit → storing i s.regs = false → removing i s.regs = false → t.regs.count = s.regs.count) ∧
    (¬ isInit → (∀ p, i ≠ .setcopy p) → t.regs.copyEn = s.regs.copyEn) ∧
    (¬ isInit → (∀ p, i ≠ .setprint p) → t.regs.printEn = s.regs.printEn) ∧
    (i ≠ .deq true ∨ removing i s.regs = false → t.regs.rdata = s.regs.rdata) ∧
    (∀ k, s.regs.esize ≤ k → t.regs.rdata[k]? = s.regs.rdata[k]?)

/-- R106: a successful INIT uninstalls both hooks, a failing one keeps them, and a hook is installed only by SETCOPY on
or SETPRINT on. -/
def Obligations.HooksLiveFromTheirRegistrationToInit : Prop :=
  ∀ (i : Instr) (s t : State), exec i s = .next t →
    (∀ b c e, i = .init true b c e → t.regs.copyEn = false ∧ t.regs.printEn = false) ∧
    (∀ b c e, i = .init false b c e → t.regs.copyEn = s.regs.copyEn ∧ t.regs.printEn = s.regs.printEn) ∧
    (s.regs.copyEn = false → t.regs.copyEn = true → i = .setcopy true) ∧
    (s.regs.printEn = false → t.regs.printEn = true → i = .setprint true)

/-- R45, R86, R92: a command that neither stores nor removes leaves every byte of storage. -/
def Obligations.OnlyTransfersTouchStorage : Prop :=
  ∀ (i : Instr) (s t : State), exec i s = .next t → storing i s.regs = false → removing i s.regs = false →
    t.mem = s.mem ∧ t.bus = [] ∧ t.draws = s.draws

/-! ### Invariants -/

/-- R36: "Rule R35 holds after reset": in every configuration, and the storage memory is canonical. -/
def Obligations.InvariantHoldsAtReset : Prop :=
  (∀ c : Params, c.Ok → Sound (State.resetOf c)) ∧ Sound State.reset

/-- R36, R98: every command preserves INV1, INV2 and INV4 and the widths of the registers, whether it succeeds or
fails. -/
def Obligations.EveryCommandPreservesTheRegisterInvariants : Prop :=
  ∀ (i : Instr) (s t : State), s.cfg.Ok → i.wf s.cfg = true → s.regs.Inv s.cfg → exec i s = .next t →
    t.regs.Inv t.cfg

/-- R35, R36: every step keeps the invariant: an admitted configuration, R35, registers within their widths, a
canonical storage memory, a sound phase, and a command to present while cmd_valid = 1; resets, stalls, races and other
agents' writes included. -/
def Obligations.EveryStepKeepsTheInvariant : Prop :=
  ∀ (s t : State), Sound s → step s = .next t → Sound t

/-- R98, R35 INV3: the occupied slots gain the slot at the old TAIL as their newest by a storing ENQ and lose their
oldest by a removing DEQ, and no other command but a successful INIT changes them. -/
def Obligations.OccupiedSlotsMoveOneAtATime : Prop :=
  ∀ (i : Instr) (s t : State), s.regs.Inv s.cfg → exec i s = .next t →
    (storing i s.regs = true → occupied t.regs = occupied s.regs ++ [s.regs.tail] ∧ s.regs.tail ∉ occupied s.regs) ∧
    (removing i s.regs = true → occupied t.regs = (occupied s.regs).tail) ∧
    (storing i s.regs = false → removing i s.regs = false → (∀ b c e, i ≠ .init true b c e) →
      occupied t.regs = occupied s.regs)

/-! ### FIFO -/

/-- R99: with disjoint slots, every command acts on the queue as a queue: a storing ENQ appends the stored bytes, a
removing DEQ drops the oldest element, INIT empties it, and nothing else changes it. -/
def Obligations.CommandsActOnTheQueueAsAFifo : Prop :=
  ∀ (i : Instr) (s t : State), s.cfg.Ok → s.regs.Inv s.cfg → BlockFits s → exec i s = .next t →
    queue t = queueAfter i s.regs (storedBy i s) (queue s)

/-- R99: "for any sequence of N enqueues … followed by N dequeues, the dequeued sequence equals the enqueued sequence in
the same order": from any empty buffer without a copy hook and with disjoint slots, wherever HEAD stands. -/
def Obligations.DequeuesReturnTheEnqueuedSequence : Prop :=
  ∀ (s : State) (elems : List (List Byte)), s.cfg.Ok → s.regs.Inv s.cfg → BlockFits s → s.regs.count = 0 →
    s.regs.copyEn = false → elems.length ≤ s.regs.cap → (∀ d ∈ elems, d.length = s.cfg.emax) →
    ∃ t, runCommands (elems.map (.enq true)) s = .next t ∧ t.regs.count = elems.length ∧
      ∀ k (hk : k < elems.length), ∃ u, runCommands (List.replicate (k + 1) (.deq true)) t = .next u ∧
        u.rsp = some ⟨.ok, false⟩ ∧ u.regs.rdata.take s.regs.esize = elems[k].take s.regs.esize

/-- R100: on a buffer just initialised, exactly CAP ENQs with P = 1 succeed and the next fails FULL. -/
def Obligations.CapacityManyEnqueuesFillTheBuffer : Prop :=
  ∀ (s : State) (elems : List (List Byte)) (last : List Byte), s.cfg.Ok → s.regs.Inv s.cfg → s.regs.count = 0 →
    elems.length = s.regs.cap →
    (∀ k < elems.length, ∃ t, runCommands ((elems.take (k + 1)).map (.enq true)) s = .next t ∧
      t.rsp = some ⟨.ok, false⟩ ∧ t.regs.count = k + 1) ∧
    ∃ t, runCommands (elems.map (.enq true)) s = .next t ∧ full t.regs = true ∧
      exec (.enq true last) t = .next (answered t .full false)

/-- R100: on a full buffer with disjoint slots and no copy hook, a DEQ and then an ENQ with P = 1 leave a full buffer
whose newest element, the last one out, is the one added; the others keep their order. -/
def Obligations.DequeueThenEnqueueKeepsAFullBufferFull : Prop :=
  ∀ (s : State) (p : Bool) (wdata : List Byte), s.cfg.Ok → s.regs.Inv s.cfg → BlockFits s → 0 < s.regs.cap →
    s.regs.count = s.regs.cap → s.regs.copyEn = false → wdata.length = s.cfg.emax →
    ∃ t, runCommands [.deq p, .enq true wdata] s = .next t ∧ t.rsp = some ⟨.ok, false⟩ ∧
      exec .qfull t = .next (answered t .ok true) ∧
      queue t = (queue s).tail ++ [wdata.take s.regs.esize]

/-- R107: the round trip of an element through an empty buffer with COPY_EN = 1: RDATA receives COPY_FN of its old
lanes and of what COPY_FN made of the slot's bytes and the element; and if COPY_FN, on elements of ESIZE bytes, ignores
its old bytes and is idempotent, that is COPY_FN of the element, whatever old bytes it is given. -/
def Obligations.RoundTripThroughTheCopyUnit : Prop :=
  ∀ (s : State) (wdata old0 : List Byte), s.cfg.Ok → s.regs.Inv s.cfg → BlockFits s → s.regs.count = 0 →
    0 < s.regs.cap → s.regs.copyEn = true → wdata.length = s.cfg.emax →
    let n := s.regs.esize
    let f := copyFn s.cfg n
    let src := wdata.take n
    ∃ t u, exec (.enq true wdata) s = .next t ∧ exec (.deq true) t = .next u ∧
      u.regs.rdata.take n = f (s.regs.rdata.take n) (f (enqSlot s) src) ∧
      ((∀ old old' x, old.length = n → old'.length = n → x.length = n → f old x = f old' x) →
        (∀ old x, old.length = n → x.length = n → f old (f old x) = f old x) →
        old0.length = n → u.regs.rdata.take n = f old0 src)

/-! ### Reset and other agents -/

/-- R131: at every rising edge with rst = 1 (rst rises, an edge while it is 1, the controller's own step while it is 1)
every register takes its reset value, the phase becomes IDLE, and cmd_ready, rsp_valid, tr_valid and m_valid are 0 while
rst stays 1; an idle controller's storage memory is not changed. -/
def Obligations.ResetEdgeResetsEveryRegister : Prop :=
  ∀ (s : State), (∃ es, s.env = .rst true :: es) ∨ (s.rst = true ∧ ∃ es, s.env = .edge :: es) ∨
      (s.rst = true ∧ s.env = []) →
    ∃ t, step s = .next t ∧
      t.regs = { cap := 0, esize := 0, base := 0, head := 0, tail := 0, count := 0, copyEn := false, printEn := false
                 rdata := List.replicate s.cfg.emax 0 } ∧
      t.phase = .idle ∧ t.rst = true ∧ cmdReady t = false ∧ rspValid t = false ∧ trValid t = false ∧
      mValid t = false ∧ t.cmds = s.cmds ∧ t.cmdValid = s.cmdValid ∧ t.env = s.env.tail ∧
      (s.phase = .idle → t.mem = s.mem)

/-- R132: the reset state is an inert, empty buffer of capacity 0: FULL = EMPTY = 1, ENQ with P = 1 responds FULL, DEQ
responds EMPTY, ENQ with P = 0 responds OK, the queries answer 1, SETCOPY and SETPRINT work and a later INIT clears what they
set, and no command touches storage; it is the state `INIT b, 0, e` leaves, apart from BASE and ESIZE. -/
def Obligations.ResetLeavesAnInertBuffer : Prop :=
  ∀ (s : State), s.regs = Regs.reset s.cfg →
    (statusOutputs s).stFull = true ∧ (statusOutputs s).stEmpty = true ∧
    (∀ d, exec (.enq true d) s = .next (answered s .full false)) ∧
    (∀ d, exec (.enq false d) s = .next (answered s .ok false)) ∧
    (∀ p, exec (.deq p) s = .next (answered s .empty false)) ∧
    exec .qfull s = .next (answered s .ok true) ∧ exec .qempty s = .next (answered s .ok true) ∧
    (∀ p, exec (.setcopy p) s = .next { answered s .ok false with regs := { s.regs with copyEn := p } }) ∧
    (∀ p, exec (.setprint p) s = .next { answered s .ok false with regs := { s.regs with printEn := p } }) ∧
    (∀ p q b cap e t, exec (.init true b cap e) { s with regs := { s.regs with copyEn := p, printEn := q } } = .next t →
      t.regs.copyEn = false ∧ t.regs.printEn = false) ∧
    (∀ i t, exec i s = .next t → t.bus = [] ∧ t.mem = s.mem) ∧
    (∀ b e t, exec (.init true b 0 e) s = .next t → { t.regs with base := 0, esize := 0 } = s.regs)

/-- R133: reset during a command abandons it: no response, every register at its reset value; performed writes stay,
and only the slot of a write still on the port (log 9) or raced with (log 8) may change. -/
def Obligations.ResetDuringACommandAbandonsIt : Prop :=
  ∀ (s : State) (b : Busy) (es : List EnvEvent), s.env = .rst true :: es → s.phase = .busy b →
    ∃ t, step s = .next t ∧ t.regs = Regs.reset s.cfg ∧ t.phase = .idle ∧ t.rsp = none ∧ t.trace = none ∧
      t.cmds = s.cmds ∧
      (b.raced = false → (∀ x ∈ (pending b s).head?, x.we = false) → t.mem = s.mem) ∧
      (∀ y, (∀ x ∈ (busyPlan b s).txns, ¬ InSlot s.cfg x.addr x.len y) → t.byteAt y = s.byteAt y)

/-- R51, R48: between commands another agent's write is a plain write: that byte changes and nothing else of the state
(but that the last step's ports are quiet again), and its read changes nothing. -/
def Obligations.AgentsBetweenCommandsTouchOnlyTheirByte : Prop :=
  ∀ (s : State) (a : Nat) (b : Byte) (es : List EnvEvent), s.phase = .idle →
    (s.env = .agentWrite a b :: es → ∃ t, step s = .next t ∧ t = { quiet s with env := es, mem := t.mem } ∧
      t.byteAt a = b ∧ ∀ x, addrBits s.cfg x ≠ addrBits s.cfg a → t.byteAt x = s.byteAt x) ∧
    (s.env = .agentRead a :: es → step s = .next { quiet s with env := es })

/-- U3 of 93_implementation_defined.md: when a command that raced with another agent completes, its slot may hold
anything, but every byte outside the slot is unchanged, and the registers and the response are as the command leaves
them given some bytes for its slot (the model's reading of U3, log 8). -/
def Obligations.ARaceIsConfinedToTheSlot : Prop :=
  ∀ (s : State) (b : Busy) (es : List EnvEvent), s.env = .edge :: es → s.rst = false → s.phase = .busy b →
    b.raced = true → pending b s = [] →
    ∃ t seen, step s = .next t ∧ seen.length = b.seen.length ∧
      t.regs = (planOf s.cfg s.regs seen b.instr).regs ∧ t.rsp = some (planOf s.cfg s.regs seen b.instr).rsp ∧
      t.phase = .idle ∧
      ∀ y, (∀ x ∈ (busyPlan b s).txns, ¬ InSlot s.cfg x.addr x.len y) → t.byteAt y = s.byteAt y

/-- R137: while a command is in progress the status outputs show the state before it. -/
def Obligations.StatusOutputsHoldDuringACommand : Prop :=
  ∀ (s : State) (b : Busy) (es : List EnvEvent), s.env = .edge :: es → s.rst = false → s.phase = .busy b →
    pending b s ≠ [] →
    ∃ t, step s = .next t ∧ statusOutputs t = statusOutputs s ∧ rspValid t = false ∧ cmdReady t = false
end

