-- ==== Sys2Proof/Laws/Encoding.lean ====
section
/-! SUPPORT. The small lemmas of the packed word (30_encoding.md R58): bit fields, byte lanes, and what decoding gives. -/

namespace Sys2Proof

/-- A field laid at its place reads back. -/
theorem bitField_of_layout {x lo width v hi : Nat} (hx : x < 2 ^ lo) (hv : v < 2 ^ width) :
    bitField (x + 2 ^ lo * (v + 2 ^ width * hi)) lo width = v := by
  unfold bitField
  rw [Nat.add_mul_div_left _ _ (by positivity), Nat.div_eq_of_lt hx, Nat.zero_add, Nat.add_mul_mod_self_left,
    Nat.mod_eq_of_lt hv]

/-- A word stays inside its bits when a field is laid above it. -/
theorem layout_lt {x lo width v : Nat} (hx : x < 2 ^ lo) (hv : v < 2 ^ width) :
    x + 2 ^ lo * v < 2 ^ (lo + width) := by
  rw [pow_add]
  have : 2 ^ lo * (v + 1) ≤ 2 ^ lo * 2 ^ width := Nat.mul_le_mul_left _ hv
  rw [Nat.mul_add] at this
  omega

/-- A bit field fits its width. -/
theorem bitField_lt (w lo width : Nat) : bitField w lo width < 2 ^ width := Nat.mod_lt _ (by positivity)

@[simp] theorem length_lanesOfNat (n w : Nat) : (lanesOfNat n w).length = n := by
  induction n generalizing w with
  | zero => rfl
  | succ n ih => simp [lanesOfNat, ih]

/-- Lane k of a bus value is its bits 8k + 7 to 8k (R13). -/
theorem lanesOfNat_eq_map (n w : Nat) :
    lanesOfNat n w = (List.range n).map fun k => BitVec.ofNat 8 (w / 2 ^ (8 * k)) := by
  induction n generalizing w with
  | zero => rfl
  | succ n ih =>
    rw [lanesOfNat, ih, List.range_succ_eq_map]
    simp only [List.map_cons, List.map_map]
    congr 1
    · simp
    · apply List.map_congr_left
      intro k _
      simp only [Function.comp]
      rw [Nat.div_div_eq_div_mul, show 256 * 2 ^ (8 * k) = 2 ^ (8 * (k + 1)) by rw [Nat.mul_add, pow_add]; ring]

/-- Byte lanes laid on a bus, with anything above them, read back. -/
theorem lanesOfNat_natOfLanes (d : List Byte) (q : Nat) :
    lanesOfNat d.length (natOfLanes d + 256 ^ d.length * q) = d := by
  induction d generalizing q with
  | nil => rfl
  | cons b bs ih =>
    have hb := b.isLt
    have e : natOfLanes (b :: bs) + 256 ^ (b :: bs).length * q =
        b.toNat + 256 * (natOfLanes bs + 256 ^ bs.length * q) := by
      simp only [natOfLanes, List.length_cons, pow_succ]
      ring
    rw [e, List.length_cons, lanesOfNat]
    congr 1
    · apply BitVec.eq_of_toNat_eq
      simp only [BitVec.toNat_ofNat]
      omega
    · rw [show (b.toNat + 256 * (natOfLanes bs + 256 ^ bs.length * q)) / 256 = natOfLanes bs + 256 ^ bs.length * q by
        omega]
      exact ih q

theorem natOfLanes_lt (d : List Byte) : natOfLanes d < 2 ^ (8 * d.length) := by
  induction d with
  | nil => simp [natOfLanes]
  | cons b bs ih =>
    have := b.isLt
    simp only [natOfLanes, List.length_cons]
    rw [show 2 ^ (8 * (bs.length + 1)) = 256 * 2 ^ (8 * bs.length) by rw [Nat.mul_add, pow_add]; ring]
    omega

/-- A word decodes exactly when it has no bit the ports do not have. -/
theorem decode_of_lt {c : Params} {w : Nat} (h : w < 2 ^ wordBits c) : decode c w = .ok (unpack c w).instr := if_pos h

/-- Every field a decoded command reads fits its port. -/
theorem decode_wf {c : Params} {w : Nat} {i : Instr} (h : decode c w = .ok i) : i.wf c = true := by
  unfold decode at h
  split at h
  · cases h
    unfold Cmd.instr unpack
    split <;> simp [Instr.wf, fitsAddr, fitsCap, fitsEsize, fitsBus, bitField_lt]
  · cases h

end Sys2Proof
end

