-- ==== Sys2Proof/Laws/State.lean ====
section
/-! SUPPORT. The small lemmas of the shared operations on State: one per field per update, so that no proof unfolds a
record update. -/

namespace Sys2Proof.Machine

section
variable (p : Plan) (s : State)

@[simp] theorem commit_cfg : (commit p s).cfg = s.cfg := rfl
@[simp] theorem commit_regs : (commit p s).regs = p.regs := rfl
@[simp] theorem commit_phase : (commit p s).phase = .idle := rfl
@[simp] theorem commit_mem : (commit p s).mem = s.mem := rfl
@[simp] theorem commit_rst : (commit p s).rst = s.rst := rfl
@[simp] theorem commit_mReady : (commit p s).mReady = s.mReady := rfl
@[simp] theorem commit_mRvalid : (commit p s).mRvalid = s.mRvalid := rfl
@[simp] theorem commit_cmdValid : (commit p s).cmdValid = s.cmdValid := rfl
@[simp] theorem commit_cmds : (commit p s).cmds = s.cmds := rfl
@[simp] theorem commit_env : (commit p s).env = s.env := rfl
@[simp] theorem commit_rsp : (commit p s).rsp = some p.rsp := rfl
@[simp] theorem commit_trace : (commit p s).trace = p.trace := rfl
@[simp] theorem commit_bus : (commit p s).bus = p.txns := rfl
@[simp] theorem commit_copyUse : (commit p s).copyUse = p.copyUse := rfl
@[simp] theorem commit_draws : (commit p s).draws = s.draws := rfl

@[simp] theorem quiet_cfg : (quiet s).cfg = s.cfg := rfl
@[simp] theorem quiet_regs : (quiet s).regs = s.regs := rfl
@[simp] theorem quiet_phase : (quiet s).phase = s.phase := rfl
@[simp] theorem quiet_mem : (quiet s).mem = s.mem := rfl
@[simp] theorem quiet_rst : (quiet s).rst = s.rst := rfl
@[simp] theorem quiet_mReady : (quiet s).mReady = s.mReady := rfl
@[simp] theorem quiet_mRvalid : (quiet s).mRvalid = s.mRvalid := rfl
@[simp] theorem quiet_cmdValid : (quiet s).cmdValid = s.cmdValid := rfl
@[simp] theorem quiet_cmds : (quiet s).cmds = s.cmds := rfl
@[simp] theorem quiet_env : (quiet s).env = s.env := rfl
@[simp] theorem quiet_rsp : (quiet s).rsp = none := rfl
@[simp] theorem quiet_trace : (quiet s).trace = none := rfl
@[simp] theorem quiet_bus : (quiet s).bus = [] := rfl
@[simp] theorem quiet_copyUse : (quiet s).copyUse = none := rfl
@[simp] theorem quiet_draws : (quiet s).draws = s.draws := rfl

variable (i : Instr)

@[simp] theorem accept_cfg : (accept i s).cfg = s.cfg := rfl
@[simp] theorem accept_regs : (accept i s).regs = s.regs := rfl
@[simp] theorem accept_phase : (accept i s).phase = .busy ⟨i, slotSeen i s, 0, false, false⟩ := rfl
@[simp] theorem accept_mem : (accept i s).mem = s.mem := rfl
@[simp] theorem accept_rst : (accept i s).rst = s.rst := rfl
@[simp] theorem accept_mReady : (accept i s).mReady = s.mReady := rfl
@[simp] theorem accept_mRvalid : (accept i s).mRvalid = s.mRvalid := rfl
@[simp] theorem accept_cmdValid : (accept i s).cmdValid = s.cmdValid := rfl
@[simp] theorem accept_cmds : (accept i s).cmds = s.cmds := rfl
@[simp] theorem accept_env : (accept i s).env = s.env := rfl
@[simp] theorem accept_rsp : (accept i s).rsp = none := rfl
@[simp] theorem accept_trace : (accept i s).trace = none := rfl
@[simp] theorem accept_bus : (accept i s).bus = [] := rfl
@[simp] theorem accept_copyUse : (accept i s).copyUse = none := rfl
@[simp] theorem accept_draws : (accept i s).draws = s.draws := rfl

end

/-- Performing a transaction touches the storage memory and the draws, nothing else. -/
theorem performTxn_eq (s : State) (t : Txn) :
    performTxn s t = { s with mem := (performTxn s t).mem, draws := (performTxn s t).draws } := by
  unfold performTxn; split <;> rfl

section
variable (s : State) (t : Txn)

@[simp] theorem performTxn_cfg : (performTxn s t).cfg = s.cfg := by rw [performTxn_eq]
@[simp] theorem performTxn_regs : (performTxn s t).regs = s.regs := by rw [performTxn_eq]
@[simp] theorem performTxn_phase : (performTxn s t).phase = s.phase := by rw [performTxn_eq]
@[simp] theorem performTxn_rst : (performTxn s t).rst = s.rst := by rw [performTxn_eq]
@[simp] theorem performTxn_mReady : (performTxn s t).mReady = s.mReady := by rw [performTxn_eq]
@[simp] theorem performTxn_mRvalid : (performTxn s t).mRvalid = s.mRvalid := by rw [performTxn_eq]
@[simp] theorem performTxn_cmdValid : (performTxn s t).cmdValid = s.cmdValid := by rw [performTxn_eq]
@[simp] theorem performTxn_cmds : (performTxn s t).cmds = s.cmds := by rw [performTxn_eq]
@[simp] theorem performTxn_env : (performTxn s t).env = s.env := by rw [performTxn_eq]
@[simp] theorem performTxn_rsp : (performTxn s t).rsp = s.rsp := by rw [performTxn_eq]
@[simp] theorem performTxn_trace : (performTxn s t).trace = s.trace := by rw [performTxn_eq]
@[simp] theorem performTxn_bus : (performTxn s t).bus = s.bus := by rw [performTxn_eq]
@[simp] theorem performTxn_copyUse : (performTxn s t).copyUse = s.copyUse := by rw [performTxn_eq]

end

/-- A read transaction changes nothing (R48). -/
@[simp] theorem performTxn_read (s : State) (a n : Nat) (d : List Byte) : performTxn s ⟨false, a, n, d⟩ = s := rfl

/-- A write transaction stores its bytes (R14). -/
@[simp] theorem performTxn_write (s : State) (a n : Nat) (d : List Byte) :
    performTxn s ⟨true, a, n, d⟩ =
      { s with mem := memWrite s.cfg s.draws s.mem a d, draws := s.draws + landingDraws s.cfg d.length } := rfl

@[simp] theorem performAll_nil (s : State) : performAll s [] = s := rfl

@[simp] theorem performAll_cons (s : State) (t : Txn) (ts : List Txn) :
    performAll s (t :: ts) = performAll (performTxn s t) ts := rfl

@[simp] theorem performAll_append (s : State) (ts us : List Txn) :
    performAll s (ts ++ us) = performAll (performAll s ts) us := List.foldl_append

/-- Performing transactions touches the storage memory and the draws, nothing else. -/
theorem performAll_eq (s : State) (ts : List Txn) :
    performAll s ts = { s with mem := (performAll s ts).mem, draws := (performAll s ts).draws } := by
  induction ts generalizing s with
  | nil => rfl
  | cons t ts ih => rw [performAll_cons, ih, performTxn_eq]

/-- What transactions leave depends on the configuration, the storage memory and the draws only. -/
theorem performAll_congr (ts : List Txn) {s t : State} (h1 : s.cfg = t.cfg) (h2 : s.mem = t.mem)
    (h3 : s.draws = t.draws) :
    (performAll s ts).mem = (performAll t ts).mem ∧ (performAll s ts).draws = (performAll t ts).draws := by
  induction ts generalizing s t with
  | nil => exact ⟨h2, h3⟩
  | cons x xs ih =>
    rw [performAll_cons, performAll_cons]
    refine ih (by simpa using h1) ?_ ?_ <;> unfold performTxn <;> split <;> simp [h1, h2, h3]

section
variable (s : State) (ts : List Txn)

@[simp] theorem performAll_cfg : (performAll s ts).cfg = s.cfg := by rw [performAll_eq]
@[simp] theorem performAll_regs : (performAll s ts).regs = s.regs := by rw [performAll_eq]
@[simp] theorem performAll_phase : (performAll s ts).phase = s.phase := by rw [performAll_eq]
@[simp] theorem performAll_rst : (performAll s ts).rst = s.rst := by rw [performAll_eq]
@[simp] theorem performAll_mReady : (performAll s ts).mReady = s.mReady := by rw [performAll_eq]
@[simp] theorem performAll_mRvalid : (performAll s ts).mRvalid = s.mRvalid := by rw [performAll_eq]
@[simp] theorem performAll_cmdValid : (performAll s ts).cmdValid = s.cmdValid := by rw [performAll_eq]
@[simp] theorem performAll_cmds : (performAll s ts).cmds = s.cmds := by rw [performAll_eq]
@[simp] theorem performAll_env : (performAll s ts).env = s.env := by rw [performAll_eq]
@[simp] theorem performAll_rsp : (performAll s ts).rsp = s.rsp := by rw [performAll_eq]
@[simp] theorem performAll_trace : (performAll s ts).trace = s.trace := by rw [performAll_eq]
@[simp] theorem performAll_bus : (performAll s ts).bus = s.bus := by rw [performAll_eq]
@[simp] theorem performAll_copyUse : (performAll s ts).copyUse = s.copyUse := by rw [performAll_eq]

end

/-- A whole command changes the registers as its plan says, the storage memory by its transactions, and its ports. -/
theorem carryOut_eq (p : Plan) (s : State) :
    carryOut p s =
      { s with regs := p.regs, phase := .idle, mem := (performAll s p.txns).mem, draws := (performAll s p.txns).draws,
               rsp := some p.rsp, trace := p.trace, bus := p.txns, copyUse := p.copyUse } := by
  unfold carryOut commit
  rw [performAll_eq]

section
variable (p : Plan) (s : State)

@[simp] theorem carryOut_cfg : (carryOut p s).cfg = s.cfg := by rw [carryOut_eq]
@[simp] theorem carryOut_regs : (carryOut p s).regs = p.regs := rfl
@[simp] theorem carryOut_phase : (carryOut p s).phase = .idle := rfl
@[simp] theorem carryOut_mem : (carryOut p s).mem = (performAll s p.txns).mem := rfl
@[simp] theorem carryOut_rst : (carryOut p s).rst = s.rst := by rw [carryOut_eq]
@[simp] theorem carryOut_mReady : (carryOut p s).mReady = s.mReady := by rw [carryOut_eq]
@[simp] theorem carryOut_mRvalid : (carryOut p s).mRvalid = s.mRvalid := by rw [carryOut_eq]
@[simp] theorem carryOut_cmdValid : (carryOut p s).cmdValid = s.cmdValid := by rw [carryOut_eq]
@[simp] theorem carryOut_cmds : (carryOut p s).cmds = s.cmds := by rw [carryOut_eq]
@[simp] theorem carryOut_env : (carryOut p s).env = s.env := by rw [carryOut_eq]
@[simp] theorem carryOut_rsp : (carryOut p s).rsp = some p.rsp := rfl
@[simp] theorem carryOut_trace : (carryOut p s).trace = p.trace := rfl
@[simp] theorem carryOut_bus : (carryOut p s).bus = p.txns := rfl
@[simp] theorem carryOut_copyUse : (carryOut p s).copyUse = p.copyUse := rfl
@[simp] theorem carryOut_draws : (carryOut p s).draws = (performAll s p.txns).draws := rfl

end

/-- A command that only answers changes nothing but its response port and registers it was given. -/
@[simp] theorem carryOut_answerPlan (r : Regs) (code : ResultCode) (flag : Bool) (s : State) :
    carryOut (answerPlan r code flag) s =
      { s with regs := r, phase := .idle, rsp := some ⟨code, flag⟩, trace := none, bus := [], copyUse := none } := rfl

@[simp] theorem readTxns_zero (a : Nat) (d : List Byte) : readTxns a 0 d = [] := rfl
@[simp] theorem writeTxns_zero (a : Nat) (d : List Byte) : writeTxns a 0 d = [] := rfl

/-- A MemRead changes nothing, whatever its length. -/
@[simp] theorem performAll_readTxns (s : State) (a n : Nat) (d : List Byte) : performAll s (readTxns a n d) = s := by
  unfold readTxns; split <;> rfl

end Sys2Proof.Machine
end

