-- ==== Sys2Proof/Laws/Memory.lean ====
section
/-! SUPPORT. The laws of the storage memory: read after write, the canonical form, and the two primitives of R14. -/

namespace Sys2Proof.Machine

variable (c : Params)

/-! ### One byte -/

@[simp] theorem readCell_put_self (a : Nat) (b : Byte) (m : List Host.Cell) :
    readCell (Memory.put a b m) a = some b := by
  induction m with
  | nil => simp [Memory.put, readCell]
  | cons x t ih =>
    obtain ⟨a', b'⟩ := x
    unfold Memory.put
    split
    · simp [readCell]
    · split
      · simp [readCell]
      · rename_i h1 h2
        simp [readCell, Ne.symm h2, ih]

theorem readCell_put_ne {a x : Nat} (h : x ≠ a) (b : Byte) (m : List Host.Cell) :
    readCell (Memory.put a b m) x = readCell m x := by
  induction m with
  | nil => simp [Memory.put, readCell, Ne.symm h]
  | cons y t ih =>
    obtain ⟨a', b'⟩ := y
    unfold Memory.put
    split
    · simp [readCell, Ne.symm h]
    · split
      · rename_i h2
        simp [readCell, Ne.symm h, ← h2]
      · simp only [readCell, ih]

theorem readCell_drop_self (a : Nat) (m : List Host.Cell) : readCell (Memory.drop a m) a = none := by
  induction m with
  | nil => rfl
  | cons y t ih =>
    obtain ⟨a', b'⟩ := y
    by_cases h : a' = a
    · simpa [Memory.drop, h] using ih
    · simpa [Memory.drop, h, readCell] using ih

theorem readCell_drop_ne {a x : Nat} (h : x ≠ a) (m : List Host.Cell) :
    readCell (Memory.drop a m) x = readCell m x := by
  induction m with
  | nil => rfl
  | cons y t ih =>
    obtain ⟨a', b'⟩ := y
    by_cases h' : a' = a
    · subst h'
      simpa [Memory.drop, readCell, Ne.symm h] using ih
    · simp only [Memory.drop, ne_eq, bne_iff_ne, h', not_false_eq_true, List.filter_cons_of_pos, readCell]
      rw [← ih]
      rfl

/-- A byte reads as the last write to it (R48). -/
@[simp] theorem Memory.read_write_self (m : List Host.Cell) (a : Nat) (b : Byte) :
    Memory.read c (Memory.write c m a b) a = b := by
  unfold Memory.write
  split
  · rename_i h
    simp [Memory.read, readCell_drop_self, h]
  · simp [Memory.read]

/-- A write leaves every other byte alone (R48). -/
theorem Memory.read_write_ne {a x : Nat} (h : x ≠ a) (m : List Host.Cell) (b : Byte) :
    Memory.read c (Memory.write c m a b) x = Memory.read c m x := by
  unfold Memory.write
  split
  · simp [Memory.read, readCell_drop_ne h]
  · simp [Memory.read, readCell_put_ne h]

/-- With nothing listed, every byte reads as STORAGE0 (R38). -/
@[simp] theorem Memory.read_nil (a : Nat) : Memory.read c [] a = storage0At c a := rfl

/-! ### The canonical form -/

theorem Memory.wf_nil : Memory.wf c [] := ⟨List.Pairwise.nil, fun _ h => absurd h List.not_mem_nil⟩

theorem Memory.mem_put {a : Nat} {b : Byte} {m : List Host.Cell} {x : Host.Cell} (h : x ∈ Memory.put a b m) :
    x = (a, b) ∨ x ∈ m := by
  induction m with
  | nil => simpa [Memory.put] using h
  | cons y t ih =>
    obtain ⟨a', b'⟩ := y
    unfold Memory.put at h
    split at h
    · simpa using h
    · split at h
      · simp only [List.mem_cons] at h ⊢
        tauto
      · simp only [List.mem_cons] at h ⊢
        rcases h with h | h
        · exact .inr (.inl h)
        · rcases ih h with h | h
          · exact .inl h
          · exact .inr (.inr h)

theorem Memory.sorted_put (a : Nat) (b : Byte) {m : List Host.Cell} (h : (m.map Prod.fst).Pairwise (· < ·)) :
    ((Memory.put a b m).map Prod.fst).Pairwise (· < ·) := by
  induction m with
  | nil => simp [Memory.put]
  | cons y t ih =>
    obtain ⟨a', b'⟩ := y
    simp only [List.map_cons, List.pairwise_cons] at h
    unfold Memory.put
    split
    · rename_i hlt
      simp only [List.map_cons, List.pairwise_cons, List.mem_cons, forall_eq_or_imp]
      exact ⟨⟨hlt, fun x hx => hlt.trans (h.1 x hx)⟩, h.1, h.2⟩
    · split
      · rename_i heq
        simp only [List.map_cons, List.pairwise_cons]
        exact ⟨heq ▸ h.1, h.2⟩
      · rename_i h1 h2
        simp only [List.map_cons, List.pairwise_cons]
        refine ⟨fun x hx => ?_, ih h.2⟩
        obtain ⟨z, hz, rfl⟩ := List.mem_map.1 hx
        rcases Memory.mem_put hz with rfl | hz
        · show a' < a
          omega
        · exact h.1 _ (List.mem_map_of_mem hz)

/-- A write keeps the canonical form. -/
theorem Memory.wf_write {m : List Host.Cell} {a : Nat} (b : Byte) (ha : a < 2 ^ c.addrW) (h : Memory.wf c m) :
    Memory.wf c (Memory.write c m a b) := by
  unfold Memory.write
  split
  · refine ⟨h.1.sublist (List.filter_sublist.map _), fun x hx => h.2 x (List.mem_filter.1 hx).1⟩
  · rename_i hb
    refine ⟨Memory.sorted_put a b h.1, fun x hx => ?_⟩
    rcases Memory.mem_put hx with rfl | hx
    · exact ⟨ha, hb⟩
    · exact h.2 x hx

theorem addrBits_lt (a : Nat) : addrBits c a < 2 ^ c.addrW := Nat.mod_lt _ (by positivity)

@[simp] theorem addrBits_addrBits (a : Nat) : addrBits c (addrBits c a) = addrBits c a := Nat.mod_mod _ _

theorem addrBits_of_lt {a : Nat} (h : a < 2 ^ c.addrW) : addrBits c a = a := Nat.mod_eq_of_lt h

theorem wf_writeFrom {m : List Host.Cell} (a : Nat) (bs : List Byte) (h : Memory.wf c m) :
    Memory.wf c (writeFrom c m a bs) := by
  induction bs generalizing m a with
  | nil => exact h
  | cons b bs ih => exact ih _ (Memory.wf_write c b (addrBits_lt c a) h)

theorem wf_memWrite {m : List Host.Cell} (d a : Nat) (bs : List Byte) (h : Memory.wf c m) :
    Memory.wf c (memWrite c d m a bs) := wf_writeFrom c a _ h

theorem wf_performTxn {s : State} (t : Txn) (h : Memory.wf s.cfg s.mem) :
    Memory.wf s.cfg (performTxn s t).mem := by
  unfold performTxn
  split
  · exact wf_memWrite _ _ _ _ h
  · exact h

theorem wf_performAll {s : State} (ts : List Txn) (h : Memory.wf s.cfg s.mem) :
    Memory.wf s.cfg (performAll s ts).mem := by
  induction ts generalizing s with
  | nil => exact h
  | cons t ts ih => simpa using ih (s := performTxn s t) (by simpa using wf_performTxn t h)

/-! ### The two primitives -/

@[simp] theorem length_memRead (m : List Host.Cell) (a n : Nat) : (memRead c m a n).length = n := by simp [memRead]

/-- Byte k of `MemRead(a, n)` comes from address (a + k) mod 2^ADDR_W (R14). -/
theorem getElem_memRead (m : List Host.Cell) {a n k : Nat} (h : k < (memRead c m a n).length) :
    (memRead c m a n)[k] = Memory.read c m (addrBits c (a + k)) := by simp [memRead]

theorem memRead_congr {m m' : List Host.Cell} {a n : Nat}
    (h : ∀ k < n, Memory.read c m (addrBits c (a + k)) = Memory.read c m' (addrBits c (a + k))) :
    memRead c m a n = memRead c m' a n :=
  List.map_congr_left fun k hk => h k (List.mem_range.1 hk)

/-- Bytes no address of the write names are left alone. -/
theorem read_writeFrom_ne {a x : Nat} {bs : List Byte} (h : ∀ k < bs.length, addrBits c (a + k) ≠ x)
    (m : List Host.Cell) : Memory.read c (writeFrom c m a bs) x = Memory.read c m x := by
  induction bs generalizing m a with
  | nil => rfl
  | cons b bs ih =>
    have h0 := h 0 (by simp)
    rw [writeFrom, ih (a := a + 1), Memory.read_write_ne c (Ne.symm (by simpa using h0))]
    intro k hk
    have := h (k + 1) (by simpa using hk)
    rwa [show a + 1 + k = a + (k + 1) by omega]

/-- A byte of the write whose address no later byte names reads as written. -/
theorem read_writeFrom_last {a k : Nat} {bs : List Byte} (hk : k < bs.length)
    (h : ∀ j < bs.length, k < j → addrBits c (a + j) ≠ addrBits c (a + k)) (m : List Host.Cell) :
    Memory.read c (writeFrom c m a bs) (addrBits c (a + k)) = bs[k] := by
  induction bs generalizing m a k with
  | nil => simp at hk
  | cons b bs ih =>
    rw [writeFrom]
    cases k with
    | zero =>
      rw [read_writeFrom_ne c (a := a + 1)]
      · simp
      · intro j hj
        have := h (j + 1) (by simpa using hj) (by omega)
        rwa [show a + 1 + j = a + (j + 1) by omega]
    | succ k =>
      have := ih (a := a + 1) (k := k) (by simpa using hk) (fun j hj hkj => by
        have := h (j + 1) (by simpa using hj) (by omega)
        rwa [show a + 1 + j = a + (j + 1) by omega, show a + 1 + k = a + (k + 1) by omega])
        (Memory.write c m (addrBits c a) b)
      rw [show a + 1 + k = a + (k + 1) by omega] at this
      simpa using this

/-- Of the bytes a write puts on one address, the last one is read back. -/
theorem read_writeFrom_some {a k : Nat} {bs : List Byte} (hk : k < bs.length) (m : List Host.Cell) :
    ∃ j, ∃ hj : j < bs.length, addrBits c (a + j) = addrBits c (a + k) ∧
      Memory.read c (writeFrom c m a bs) (addrBits c (a + k)) = bs[j] := by
  let P : Nat → Prop := fun j => j < bs.length ∧ addrBits c (a + j) = addrBits c (a + k)
  have hP : P k := ⟨hk, rfl⟩
  obtain ⟨j, hj, hmax⟩ : ∃ j, P j ∧ ∀ i, j < i → ¬ P i := by
    classical
    refine ⟨Nat.findGreatest P bs.length, Nat.findGreatest_spec (P := P) hk.le hP, fun i hi hp => ?_⟩
    exact absurd (Nat.le_findGreatest (P := P) hp.1.le hp) (by omega)
  obtain ⟨hlt, hadd⟩ := hj
  refine ⟨j, hlt, hadd, ?_⟩
  have hlast := read_writeFrom_last c hlt (fun i hi hji he => hmax i hji ⟨hi, he.trans hadd⟩) m
  rwa [hadd] at hlast

@[simp] theorem length_landing (d : Nat) (bs : List Byte) : (landing c d bs).length = bs.length := by
  unfold landing; split <;> simp

/-- A transaction no longer than the address space lands as it is. -/
theorem landing_of_le {bs : List Byte} (h : bs.length ≤ 2 ^ c.addrW) (d : Nat) : landing c d bs = bs := if_pos h

/-- What lands where byte k goes is one of the bytes that go to that address. -/
theorem landing_some {bs : List Byte} {k : Nat} (hk : k < bs.length) (d a : Nat) :
    ∃ j, ∃ hj : j < bs.length, addrBits c (a + j) = addrBits c (a + k) ∧
      (landing c d bs)[k]'(by simpa using hk) = bs[j] := by
  by_cases h : bs.length ≤ 2 ^ c.addrW
  · exact ⟨k, hk, rfl, by simp [landing_of_le c h]⟩
  · have hpos : 0 < 2 ^ c.addrW := by positivity
    generalize hN : 2 ^ c.addrW = N at *
    have hj0 : k % N < N := Nat.mod_lt _ hpos
    generalize hq : (bs.length - k % N + N - 1) / N = q
    have hq1 : 0 < q := by
      rw [← hq]; exact Nat.div_pos (by omega) hpos
    have hx : Config.lastLane (d + k % N) % q < q := Nat.mod_lt _ hq1
    generalize hm : Config.lastLane (d + k % N) % q = x at *
    have hlt : k % N + N * x < bs.length := by
      have h1 : N * (x + 1) ≤ N * q := Nat.mul_le_mul_left _ hx
      have h2 : N * q ≤ bs.length - k % N + N - 1 := by rw [← hq]; exact Nat.mul_div_le _ _
      have h3 : N * (x + 1) = N * x + N := by ring
      omega
    refine ⟨k % N + N * x, hlt, ?_, ?_⟩
    · simp only [addrBits, hN]
      rw [← Nat.add_assoc, Nat.add_mul_mod_self_left, Nat.add_mod, Nat.mod_mod, ← Nat.add_mod]
    · simp only [landing, hN, h, if_false, List.getElem_map, List.getElem_range, addrBits, hq, hm]
      simp [List.getD_eq_getElem?_getD, hlt]

/-- A MemWrite leaves every byte outside its addresses alone. -/
theorem read_memWrite_ne {d a x : Nat} {bs : List Byte} (h : ∀ k < bs.length, addrBits c (a + k) ≠ x)
    (m : List Host.Cell) : Memory.read c (memWrite c d m a bs) x = Memory.read c m x :=
  read_writeFrom_ne c (by simpa using h) m

/-- Where byte k of a MemWrite goes, one of the bytes that go there is read back. -/
theorem read_memWrite_some {d a k : Nat} {bs : List Byte} (hk : k < bs.length) (m : List Host.Cell) :
    ∃ j, ∃ hj : j < bs.length, addrBits c (a + j) = addrBits c (a + k) ∧
      Memory.read c (memWrite c d m a bs) (addrBits c (a + k)) = bs[j] := by
  obtain ⟨i, hi, hai, hr⟩ := read_writeFrom_some c (a := a) (bs := landing c d bs) (by simpa using hk) m
  obtain ⟨j, hj, haj, hl⟩ := landing_some c (by simpa using hi : i < bs.length) d a
  exact ⟨j, hj, haj.trans hai, hr.trans hl⟩

/-- Two offsets below the size of the address space name different addresses. -/
theorem addrBits_inj {a j k : Nat} (hj : j < 2 ^ c.addrW) (hk : k < 2 ^ c.addrW)
    (h : addrBits c (a + j) = addrBits c (a + k)) : j = k := by
  have := Nat.ModEq.add_left_cancel' a (h : a + j ≡ a + k [MOD 2 ^ c.addrW])
  rwa [Nat.ModEq, Nat.mod_eq_of_lt hj, Nat.mod_eq_of_lt hk] at this

/-- Byte k of a MemWrite no longer than the address space is read back where it goes (R14). -/
theorem read_memWrite {d a k : Nat} {bs : List Byte} (hk : k < bs.length) (hle : bs.length ≤ 2 ^ c.addrW)
    (m : List Host.Cell) : Memory.read c (memWrite c d m a bs) (addrBits c (a + k)) = bs[k] := by
  obtain ⟨j, hj, ha, hr⟩ := read_memWrite_some c (d := d) (a := a) hk m
  have := addrBits_inj c (hj.trans_le hle) (hk.trans_le hle) ha
  subst this
  exact hr

/-- A MemRead of what a MemWrite wrote (R48). -/
theorem memRead_memWrite_self {d a : Nat} {bs : List Byte} (hle : bs.length ≤ 2 ^ c.addrW) (m : List Host.Cell) :
    memRead c (memWrite c d m a bs) a bs.length = bs := by
  refine List.ext_getElem (by simp) fun k hk _ => ?_
  rw [getElem_memRead, read_memWrite c (by simpa using hk) hle]

/-- A MemRead of addresses a MemWrite does not name. -/
theorem memRead_memWrite_disjoint {d a a' n : Nat} {bs : List Byte}
    (h : ∀ j < n, ∀ k < bs.length, addrBits c (a + k) ≠ addrBits c (a' + j)) (m : List Host.Cell) :
    memRead c (memWrite c d m a bs) a' n = memRead c m a' n :=
  memRead_congr c fun j hj => read_memWrite_ne c (h j hj) m

end Sys2Proof.Machine
end

