-- ==== Sys2Proof/Laws/Operands.lean ====
section
/-! SUPPORT. The laws of the operand forms: lanes (R13), the copy unit (R16), the increment (R12), the widths (R11). -/

namespace Sys2Proof.Machine

@[simp] theorem length_lanes (d : List Byte) (n : Nat) : (lanes d n).length = n := by simp [lanes]

/-- On a bus that has n lanes, `lanes(d, n)` is its first n bytes. -/
theorem lanes_eq_take {d : List Byte} {n : Nat} (h : n ≤ d.length) : lanes d n = d.take n := by
  refine List.ext_getElem (by simp [h]) fun k hk _ => ?_
  have hk' : k < d.length := (by simpa using hk : k < n).trans_le h
  simp [lanes, List.getD_eq_getElem?_getD, hk']

/-- The lanes of exactly that many bytes are those bytes. -/
@[simp] theorem lanes_self (d : List Byte) : lanes d d.length = d := by
  rw [lanes_eq_take le_rfl, List.take_length]

theorem lanes_of_length {d : List Byte} {n : Nat} (h : d.length = n) : lanes d n = d := by
  subst h; exact lanes_self d

@[simp] theorem length_setLanes (d b : List Byte) (n : Nat) : (setLanes d n b).length = d.length := by simp [setLanes]

/-- `set_lanes(d, n, b)` puts b below the lanes of d from n up. -/
theorem setLanes_eq_append {d b : List Byte} {n : Nat} (hb : b.length = n) (hn : n ≤ d.length) :
    setLanes d n b = b ++ d.drop n := by
  refine List.ext_getElem (by simp [hb, hn]) fun k hk _ => ?_
  have hk' : k < d.length := by simpa using hk
  by_cases h : k < n
  · simp [setLanes, h, hb, List.getD_eq_getElem?_getD]
  · have : k - n < d.length - n := by omega
    simp [setLanes, h, hb, List.getD_eq_getElem?_getD, List.getElem_append, hk', show n + (k - n) = k by omega]

/-- Lanes at and above n are unchanged (R13). -/
theorem getElem?_setLanes_of_le {d b : List Byte} {n k : Nat} (h : n ≤ k) : (setLanes d n b)[k]? = d[k]? := by
  by_cases hk : k < d.length
  · simp [setLanes, hk, Nat.not_lt.2 h, List.getD_eq_getElem?_getD]
  · simp [setLanes, hk]

@[simp] theorem setLanes_zero (d b : List Byte) : setLanes d 0 b = d := by
  refine List.ext_getElem? fun k => getElem?_setLanes_of_le (Nat.zero_le k)

variable (c : Params)

/-- The copy unit returns n bytes (R16). -/
@[simp] theorem length_copyFn (n : Nat) (old src : List Byte) : (copyFn c n old src).length = n := by
  unfold copyFn; split <;> simp

/-- With no copy unit, `cp_dst` is tied to `cp_src` (R104). -/
theorem copyFn_of_no_unit {c : Params} (h : c.copyTable = []) (n : Nat) (old src : List Byte) :
    copyFn c n old src = lanes src n := by simp [copyFn, h]

theorem capBits_of_lt {v : Nat} (h : v < 2 ^ c.capW) : capBits c v = v := Nat.mod_eq_of_lt h

theorem capBits_lt (v : Nat) : capBits c v < 2 ^ c.capW := Nat.mod_lt _ (by positivity)

theorem esizeBits_of_lt {v : Nat} (h : v < 2 ^ c.eszW) : esizeBits c v = v := Nat.mod_eq_of_lt h

/-- For x < CAP, inc(x) = (x + 1) mod CAP (R12). -/
theorem inc_eq {r : Regs} {x : Nat} (hx : x < r.cap) (hc : r.cap < 2 ^ c.capW) : inc c r x = (x + 1) % r.cap := by
  unfold inc
  split
  · rename_i h; rw [h, Nat.mod_self]
  · rename_i h
    rw [capBits_of_lt c (by omega), Nat.mod_eq_of_lt (by omega)]

/-- inc stays below CAP. -/
theorem inc_lt {r : Regs} {x : Nat} (hx : x < r.cap) (hc : r.cap < 2 ^ c.capW) : inc c r x < r.cap := by
  rw [inc_eq c hx hc]; exact Nat.mod_lt _ (by omega)

theorem slotAddr_lt (r : Regs) (i : Nat) : slotAddr c r i < 2 ^ c.addrW := addrBits_lt c _

@[simp] theorem addrBits_slotAddr (r : Regs) (i : Nat) : addrBits c (slotAddr c r i) = slotAddr c r i :=
  addrBits_addrBits c _

/-- The address of byte k of slot i (R40). -/
theorem addrBits_slotAddr_add (r : Regs) (i k : Nat) :
    addrBits c (slotAddr c r i + k) = addrBits c (r.base + i * r.esize + k) := by
  simp [slotAddr, addrBits, Nat.add_mod]

/-- R9: an element fits the buses. -/
theorem esize_le_emax {c : Params} {r : Regs} (hc : c.BusOk) (hr : r.esize < 2 ^ c.eszW) : r.esize ≤ c.emax := by
  unfold Params.BusOk at hc; omega

@[simp] theorem full_eq_true {r : Regs} : full r = true ↔ r.count = r.cap := by simp [full]
@[simp] theorem full_eq_false {r : Regs} : full r = false ↔ r.count ≠ r.cap := by simp [full]
@[simp] theorem empty_eq_true {r : Regs} : empty r = true ↔ r.count = 0 := by simp [empty]
@[simp] theorem empty_eq_false {r : Regs} : empty r = false ↔ r.count ≠ 0 := by simp [empty]

end Sys2Proof.Machine
end

