-- ==== Sys2Proof/Laws/Exec.lean ====
section
/-! SUPPORT. What a command can do, said once: `exec` carries out the plan of the command; the shapes of the plans of
ENQ and DEQ; what their transactions leave in storage. -/

namespace Sys2Proof.Machine

/-- Every command is its plan, carried out. -/
theorem exec_eq_carryOut (i : Instr) (s : State) : exec i s = .next (carryOut (planAt i s) s) := by cases i <;> rfl

/-- The one next state of a command. -/
theorem exec_next_iff {i : Instr} {s t : State} : exec i s = .next t ↔ t = carryOut (planAt i s) s := by
  rw [exec_eq_carryOut, Host.Outcome.next.injEq, eq_comm]

theorem carryOut_answerPlan_self (code : ResultCode) (flag : Bool) (s : State) :
    carryOut (answerPlan s.regs code flag) s = answered s code flag := rfl

/-! ### The plans by their paths -/

@[simp] theorem planEnq_absent (c : Params) (r : Regs) (w old : List Byte) :
    planEnq c r false w old = answerPlan r .ok false := rfl

theorem planEnq_full {c : Params} {r : Regs} (h : full r = true) (w old : List Byte) :
    planEnq c r true w old = answerPlan r .full false := by simp [planEnq, h]

theorem planEnq_stores {c : Params} {r : Regs} (h : full r = false) (w old : List Byte) :
    planEnq c r true w old =
      { regs := enqRegs c r
        txns := (if r.copyEn then readTxns (slotAddr c r r.tail) r.esize old else []) ++
                writeTxns (slotAddr c r r.tail) r.esize (storedBytes c r w old)
        copyUse := if r.copyEn then some ⟨r.esize, old, lanes w r.esize, storedBytes c r w old⟩ else none
        trace := traceOf c r (enqRegs c r) .enq (storedBytes c r w old)
        rsp := ⟨.ok, false⟩ } := by simp [planEnq, h]

theorem planDeq_empty {c : Params} {r : Regs} (h : empty r = true) (p : Bool) (slot : List Byte) :
    planDeq c r p slot = answerPlan r .empty false := by simp [planDeq, h]

theorem planDeq_removes {c : Params} {r : Regs} (h : empty r = false) (p : Bool) (slot : List Byte) :
    planDeq c r p slot =
      { regs := deqRegs c r p slot
        txns := (if p || r.printEn then readTxns (slotAddr c r r.head) r.esize slot else []) ++
                (if c.clearOnRemove then writeTxns (slotAddr c r r.head) r.esize (zeros r.esize) else [])
        copyUse := if p && r.copyEn then some ⟨r.esize, lanes r.rdata r.esize, slot, copiedOut c r slot⟩ else none
        trace := traceOf c r (deqRegs c r p slot) .deq slot
        rsp := ⟨.ok, false⟩ } := by simp [planDeq, h]

@[simp] theorem length_storedBytes (c : Params) (r : Regs) (w old : List Byte) :
    (storedBytes c r w old).length = r.esize := by unfold storedBytes; split <;> simp

@[simp] theorem length_enqSlot (s : State) : (enqSlot s).length = s.regs.esize := by simp [enqSlot]
@[simp] theorem length_deqSlot (s : State) : (deqSlot s).length = s.regs.esize := by simp [deqSlot]

theorem length_copiedOut (c : Params) (r : Regs) {slot : List Byte} (h : slot.length = r.esize) :
    (copiedOut c r slot).length = r.esize := by unfold copiedOut; split <;> simp [h]

/-! ### What a write of one slot leaves -/

/-- A slot's write transaction, performed, is one MemWrite; for no bytes it is nothing. -/
theorem mem_performAll_writeTxns (s : State) (a n : Nat) {d : List Byte} (hd : d.length = n) :
    (performAll s (writeTxns a n d)).mem = memWrite s.cfg s.draws s.mem a d := by
  unfold writeTxns
  split
  · rename_i h
    have : d = [] := by simpa [h] using hd
    subst this
    simp [memWrite, landing, writeFrom]
  · rfl

/-- The storage memory after a storing ENQ. -/
theorem enq_mem {s : State} (h : full s.regs = false) (w : List Byte) :
    (performAll s (planEnq s.cfg s.regs true w (enqSlot s)).txns).mem =
      memWrite s.cfg s.draws s.mem (slotAddr s.cfg s.regs s.regs.tail)
        (storedBytes s.cfg s.regs w (enqSlot s)) := by
  rw [planEnq_stores h]
  simp only [performAll_append]
  rw [show performAll s (if s.regs.copyEn then readTxns (slotAddr s.cfg s.regs s.regs.tail) s.regs.esize (enqSlot s)
    else []) = s by split <;> simp, mem_performAll_writeTxns s _ _ (by simp)]

/-- The storage memory after a removing DEQ. -/
theorem deq_mem {s : State} (h : empty s.regs = false) (p : Bool) :
    (performAll s (planDeq s.cfg s.regs p (deqSlot s)).txns).mem =
      if s.cfg.clearOnRemove then
        memWrite s.cfg s.draws s.mem (slotAddr s.cfg s.regs s.regs.head) (zeros s.regs.esize)
      else s.mem := by
  rw [planDeq_removes h]
  simp only [performAll_append]
  rw [show performAll s (if p || s.regs.printEn then readTxns (slotAddr s.cfg s.regs s.regs.head) s.regs.esize
    (deqSlot s) else []) = s by split <;> simp]
  split
  · rw [mem_performAll_writeTxns s _ _ (by simp)]
  · rfl

/-! ### What a command can be -/

/-- A command answers with nothing else done, or is one of the five that do more, on the path on which it does. -/
theorem planAt_cases (i : Instr) (s : State) :
    (∃ code flag, planAt i s = answerPlan s.regs code flag ∧ storing i s.regs = false ∧ removing i s.regs = false) ∨
    (∃ base cap esize, i = .init true base cap esize) ∨ (∃ p, i = .setcopy p) ∨ (∃ p, i = .setprint p) ∨
    (∃ w, i = .enq true w ∧ full s.regs = false) ∨ (∃ p, i = .deq p ∧ empty s.regs = false) := by
  cases i with
  | init p base cap esize =>
    cases p
    · exact .inl ⟨_, _, rfl, rfl, rfl⟩
    · exact .inr (.inl ⟨_, _, _, rfl⟩)
  | qfull => exact .inl ⟨_, _, rfl, rfl, rfl⟩
  | qempty => exact .inl ⟨_, _, rfl, rfl, rfl⟩
  | rsv => exact .inl ⟨_, _, rfl, rfl, rfl⟩
  | setcopy p => simp
  | setprint p => simp
  | enq p w =>
    cases p
    · exact .inl ⟨_, _, rfl, rfl, rfl⟩
    · cases h : full s.regs
      · simp
      · exact .inl ⟨_, _, planEnq_full h _ _, by simp [storing, h], rfl⟩
  | deq p =>
    cases h : empty s.regs
    · simp
    · exact .inl ⟨_, _, planDeq_empty h _ _, rfl, by simp [removing, h]⟩

end Sys2Proof.Machine
end

