-- ==== Sys2Proof/Laws/PerInstr.lean ====
section
/-! SUPPORT. The per-instruction family `EncodeHeader` of LAWS.json: the header of a command's encoding (R58, R59). -/

namespace Sys2Proof.Laws

/-- In every configuration, the low four bits of the packed word are the command's header, and the one row of
spec/opcode_table.json that the header matches is the command's. -/
def EncodeHeader.Statement (i : Instr) : Prop :=
  ∀ c : Params, encode c i % 2 ^ 4 = (i.cmd c).header ∧ rowsOf (encode c i % 2 ^ 4) = [i.mnemonic]

/-- A record with a three-bit OP has its header in the low four bits of its word. -/
theorem pack_header (c : Params) {m : Cmd} (h : m.op < 8) : pack c m % 2 ^ 4 = m.header := by
  have hp : m.p.toNat ≤ 1 := by cases m.p <;> decide
  have e : pack c m = m.header + 2 ^ 4 * (m.base + 2 ^ c.addrW * m.cap + 2 ^ (c.addrW + c.capW) * m.esize +
      2 ^ (c.addrW + c.capW + c.eszW) * natOfLanes m.wdata) := by
    unfold pack capAt esizeAt wdataAt
    simp only [pow_add]
    ring
  rw [e, Nat.add_mul_mod_self_left, Nat.mod_eq_of_lt]
  unfold Cmd.header
  omega

theorem op_cmd_lt (c : Params) (i : Instr) : (i.cmd c).op < 8 := by cases i <;> simp [Instr.cmd]

theorem encodeHeader_of {i : Instr} {h : Nat} (hh : ∀ c, (i.cmd c).header = h)
    (hr : rowsOf h = [i.mnemonic]) : EncodeHeader.Statement i := fun c => by
  have e : encode c i % 2 ^ 4 = (i.cmd c).header := pack_header c (op_cmd_lt c i)
  exact ⟨e, by rw [e, hh c, hr]⟩

theorem EncodeHeader.init (p : Bool) (base cap esize : Nat) : EncodeHeader.Statement (.init p base cap esize) := by
  cases p
  · exact encodeHeader_of (h := 0b0000) (fun _ => rfl) rfl
  · exact encodeHeader_of (h := 0b0001) (fun _ => rfl) rfl

theorem EncodeHeader.qfull : EncodeHeader.Statement .qfull :=
  encodeHeader_of (h := 0b0010) (fun _ => rfl) rfl

theorem EncodeHeader.qempty : EncodeHeader.Statement .qempty :=
  encodeHeader_of (h := 0b0100) (fun _ => rfl) rfl

theorem EncodeHeader.enq (p : Bool) (wdata : List Byte) : EncodeHeader.Statement (.enq p wdata) := by
  cases p
  · exact encodeHeader_of (h := 0b0110) (fun _ => rfl) rfl
  · exact encodeHeader_of (h := 0b0111) (fun _ => rfl) rfl

theorem EncodeHeader.deq (p : Bool) : EncodeHeader.Statement (.deq p) := by
  cases p
  · exact encodeHeader_of (h := 0b1000) (fun _ => rfl) rfl
  · exact encodeHeader_of (h := 0b1001) (fun _ => rfl) rfl

theorem EncodeHeader.setcopy (p : Bool) : EncodeHeader.Statement (.setcopy p) := by
  cases p
  · exact encodeHeader_of (h := 0b1010) (fun _ => rfl) rfl
  · exact encodeHeader_of (h := 0b1011) (fun _ => rfl) rfl

theorem EncodeHeader.setprint (p : Bool) : EncodeHeader.Statement (.setprint p) := by
  cases p
  · exact encodeHeader_of (h := 0b1100) (fun _ => rfl) rfl
  · exact encodeHeader_of (h := 0b1101) (fun _ => rfl) rfl

theorem EncodeHeader.rsv : EncodeHeader.Statement .rsv :=
  encodeHeader_of (h := 0b1110) (fun _ => rfl) rfl

end Sys2Proof.Laws
end

