-- ==== Sys2Proof/Laws/Step.lean ====
section
/-! SUPPORT. What a step can do, said once: the events of the environment, the edges of a command in progress, and the
controller's own step. -/

namespace Sys2Proof.Machine

/-- A command's plan depends on the configuration, the registers and the storage memory only. -/
theorem planAt_congr (i : Instr) {s t : State} (h1 : s.cfg = t.cfg) (h2 : s.regs = t.regs) (h3 : s.mem = t.mem) :
    planAt i s = planAt i t := by
  cases i <;> simp [planAt, planOf, slotSeen, enqSlot, deqSlot, h1, h2, h3]

/-- The plan of the command in progress depends on the configuration and the registers only. -/
theorem busyPlan_congr (b : Busy) {s t : State} (h1 : s.cfg = t.cfg) (h2 : s.regs = t.regs) :
    busyPlan b s = busyPlan b t := by rw [busyPlan, busyPlan, h1, h2]

theorem pending_congr (b : Busy) {s t : State} (h1 : s.cfg = t.cfg) (h2 : s.regs = t.regs) :
    pending b s = pending b t := by rw [pending, pending, busyPlan_congr b h1 h2]

/-- Right after acceptance, the command in progress has its whole plan before it. -/
theorem pending_accepted (i : Instr) (s : State) : pending ⟨i, slotSeen i s, 0, false, false⟩ s = (planAt i s).txns := rfl

/-- An outstanding event is what the next step does. -/
theorem step_event {s : State} {e : EnvEvent} {es : List EnvEvent} (h : s.env = e :: es) :
    step s = environment e { quiet s with env := es } := by rw [step, h]

/-- With no event outstanding the next step is the controller's. -/
theorem step_controller {s : State} (h : s.env = []) : step s = controller s := by rw [step, h]

/-- Scrambling a slot touches the storage memory and the draws, nothing else. -/
theorem scrambleSlot_eq (b : Busy) (s : State) :
    scrambleSlot b s = { s with mem := (scrambleSlot b s).mem, draws := (scrambleSlot b s).draws } := by
  unfold scrambleSlot; split <;> rfl

/-- Another agent's access touches the phase (a race) and the draws, nothing else. -/
theorem agentAccess_eq (a : Nat) (s : State) :
    agentAccess a s = { s with phase := (agentAccess a s).phase, draws := (agentAccess a s).draws } := by
  unfold agentAccess; split
  · rfl
  · split
    · rfl
    · split <;> rfl

/-- Abandoning a command touches the storage memory and the draws, nothing else. -/
theorem abandon_eq (s : State) : abandon s = { s with mem := (abandon s).mem, draws := (abandon s).draws } := by
  unfold abandon; split
  · rfl
  · split
    · exact scrambleSlot_eq _ s
    · rfl

section
variable (b : Busy) (s : State) (a : Nat)

@[simp] theorem scrambleSlot_cfg : (scrambleSlot b s).cfg = s.cfg := by rw [scrambleSlot_eq]
@[simp] theorem scrambleSlot_regs : (scrambleSlot b s).regs = s.regs := by rw [scrambleSlot_eq]
@[simp] theorem scrambleSlot_rst : (scrambleSlot b s).rst = s.rst := by rw [scrambleSlot_eq]
@[simp] theorem scrambleSlot_mReady : (scrambleSlot b s).mReady = s.mReady := by rw [scrambleSlot_eq]
@[simp] theorem scrambleSlot_mRvalid : (scrambleSlot b s).mRvalid = s.mRvalid := by rw [scrambleSlot_eq]
@[simp] theorem scrambleSlot_cmdValid : (scrambleSlot b s).cmdValid = s.cmdValid := by rw [scrambleSlot_eq]
@[simp] theorem scrambleSlot_cmds : (scrambleSlot b s).cmds = s.cmds := by rw [scrambleSlot_eq]
@[simp] theorem scrambleSlot_env : (scrambleSlot b s).env = s.env := by rw [scrambleSlot_eq]
@[simp] theorem agentAccess_cfg : (agentAccess a s).cfg = s.cfg := by rw [agentAccess_eq]
@[simp] theorem agentAccess_regs : (agentAccess a s).regs = s.regs := by rw [agentAccess_eq]
@[simp] theorem agentAccess_mem : (agentAccess a s).mem = s.mem := by rw [agentAccess_eq]
@[simp] theorem agentAccess_rst : (agentAccess a s).rst = s.rst := by rw [agentAccess_eq]
@[simp] theorem agentAccess_mReady : (agentAccess a s).mReady = s.mReady := by rw [agentAccess_eq]
@[simp] theorem agentAccess_mRvalid : (agentAccess a s).mRvalid = s.mRvalid := by rw [agentAccess_eq]
@[simp] theorem agentAccess_cmdValid : (agentAccess a s).cmdValid = s.cmdValid := by rw [agentAccess_eq]
@[simp] theorem agentAccess_cmds : (agentAccess a s).cmds = s.cmds := by rw [agentAccess_eq]
@[simp] theorem agentAccess_env : (agentAccess a s).env = s.env := by rw [agentAccess_eq]
@[simp] theorem agentAccess_rsp : (agentAccess a s).rsp = s.rsp := by rw [agentAccess_eq]
@[simp] theorem abandon_cfg : (abandon s).cfg = s.cfg := by rw [abandon_eq]
@[simp] theorem abandon_regs : (abandon s).regs = s.regs := by rw [abandon_eq]
@[simp] theorem abandon_rst : (abandon s).rst = s.rst := by rw [abandon_eq]
@[simp] theorem abandon_mReady : (abandon s).mReady = s.mReady := by rw [abandon_eq]
@[simp] theorem abandon_mRvalid : (abandon s).mRvalid = s.mRvalid := by rw [abandon_eq]
@[simp] theorem abandon_cmdValid : (abandon s).cmdValid = s.cmdValid := by rw [abandon_eq]
@[simp] theorem abandon_cmds : (abandon s).cmds = s.cmds := by rw [abandon_eq]
@[simp] theorem abandon_env : (abandon s).env = s.env := by rw [abandon_eq]
@[simp] theorem resetEdge_cfg : (resetEdge s).cfg = s.cfg := abandon_cfg s
@[simp] theorem resetEdge_rst : (resetEdge s).rst = s.rst := abandon_rst s
@[simp] theorem resetEdge_mReady : (resetEdge s).mReady = s.mReady := abandon_mReady s
@[simp] theorem resetEdge_mRvalid : (resetEdge s).mRvalid = s.mRvalid := abandon_mRvalid s
@[simp] theorem resetEdge_cmdValid : (resetEdge s).cmdValid = s.cmdValid := abandon_cmdValid s
@[simp] theorem resetEdge_cmds : (resetEdge s).cmds = s.cmds := abandon_cmds s
@[simp] theorem resetEdge_env : (resetEdge s).env = s.env := abandon_env s
@[simp] theorem resetEdge_regs : (resetEdge s).regs = Regs.reset s.cfg := rfl
@[simp] theorem resetEdge_phase : (resetEdge s).phase = .idle := rfl
@[simp] theorem resetEdge_mem : (resetEdge s).mem = (abandon s).mem := rfl
@[simp] theorem resetEdge_draws : (resetEdge s).draws = (abandon s).draws := rfl
@[simp] theorem resetEdge_rsp : (resetEdge s).rsp = none := rfl
@[simp] theorem resetEdge_trace : (resetEdge s).trace = none := rfl
@[simp] theorem resetEdge_bus : (resetEdge s).bus = [] := rfl
@[simp] theorem resetEdge_copyUse : (resetEdge s).copyUse = none := rfl

theorem agentAccess_idle (h : s.phase = .idle) : agentAccess a s = s := by rw [agentAccess, h]
theorem abandon_idle (h : s.phase = .idle) : abandon s = s := by rw [abandon, h]

end

/-- What one edge of a command in progress does: its next transaction is performed, or a read transfers, or it waits, or
the command ends. -/
theorem busyEdge_cases (b : Busy) (s : State) :
    (∃ t ts, pending b s = t :: ts ∧ performs b s t = true ∧
      busyEdge b s = { performTxn s t with phase := .busy { b with done := b.done + 1, awaiting := false } }) ∨
    (∃ t ts, pending b s = t :: ts ∧ t.we = false ∧ b.awaiting = false ∧ s.mReady = true ∧ s.mRvalid = false ∧
      busyEdge b s = { s with phase := .busy { b with awaiting := true } }) ∨
    (∃ t ts, pending b s = t :: ts ∧ performs b s t = false ∧ (b.awaiting = true ∨ s.mReady = false) ∧
      busyEdge b s = s) ∨
    (pending b s = [] ∧ busyEdge b s = finalEdge b s) := by
  unfold busyEdge
  cases hp : pending b s with
  | nil => simp
  | cons t ts =>
    cases h1 : b.awaiting <;> cases h2 : s.mReady <;> cases h3 : s.mRvalid <;> cases h4 : t.we <;>
      simp [performs, served, h1, h2, h3, h4]

/-- The registers after the final edge are those of the command, given some bytes for its slot. -/
theorem finalPlan_regs (b : Busy) (s : State) :
    ∃ seen, seen.length = b.seen.length ∧ (finalPlan b s).regs = (planOf s.cfg s.regs seen b.instr).regs := by
  unfold finalPlan
  split
  · exact ⟨freeBytes s.draws b.seen.length, by simp [freeBytes], rfl⟩
  · exact ⟨b.seen, rfl, rfl⟩

/-- What the final edge leaves. -/
theorem finalEdge_eq (b : Busy) (s : State) :
    finalEdge b s = commit (finalPlan b s)
      (if b.raced then scrambleSlot b { s with draws := s.draws + b.seen.length } else s) := by
  unfold finalEdge; split <;> rfl

/-- Without a race, the final edge completes the command's plan. -/
theorem finalEdge_of_no_race {b : Busy} {s : State} (h : b.raced = false) :
    finalEdge b s = commit (busyPlan b s) s := by
  unfold finalEdge finalPlan
  rw [h]
  rfl

/-- What a clock edge does (R131): reset, nothing, or an edge of the command in progress. -/
theorem clockEdge_cases (s : State) :
    (s.rst = true ∧ clockEdge s = resetEdge s) ∨ (s.rst = false ∧ s.phase = .idle ∧ clockEdge s = s) ∨
    (∃ b, s.rst = false ∧ s.phase = .busy b ∧ clockEdge s = busyEdge b s) := by
  unfold clockEdge
  cases h : s.rst <;> cases h2 : s.phase <;> simp

/-- What a rising edge does: an accepted command, a refused word, or an edge of the controller. -/
theorem risingEdge_cases (s : State) :
    (∃ w ws i, s.cmdValid = true ∧ cmdReady s = true ∧ s.cmds = w :: ws ∧ decode s.cfg w = .ok i ∧
      risingEdge s = .next (accept i { s with cmds := ws, cmdValid := false })) ∨
    (∃ w ws e, s.cmdValid = true ∧ cmdReady s = true ∧ s.cmds = w :: ws ∧ decode s.cfg w = .error e ∧
      risingEdge s = .refused (.notACommandWord e)) ∨
    ((s.cmdValid = false ∨ cmdReady s = false ∨ s.cmds = []) ∧ risingEdge s = .next (clockEdge s)) := by
  unfold risingEdge
  cases hv : s.cmdValid with
  | false => simp
  | true =>
    cases hr : cmdReady s with
    | false => simp
    | true =>
      cases hc : s.cmds with
      | nil => simp
      | cons w ws => cases hd : decode s.cfg w with
        | ok i => exact .inl ⟨w, ws, i, rfl, rfl, rfl, hd, by simp [hd]⟩
        | error e => exact .inr (.inl ⟨w, ws, e, rfl, rfl, rfl, hd, by simp [hd]⟩)

/-- What running a command word does: the command is accepted and waits, or runs, or the word is refused. -/
theorem runWord_cases (w : Nat) (s : State) :
    (∃ i, decode s.cfg w = .ok i ∧ mustWait i s = true ∧ runWord w s = .next (accept i s)) ∨
    (∃ i, decode s.cfg w = .ok i ∧ mustWait i s = false ∧ runWord w s = .next (carryOut (planAt i s) s)) ∨
    (∃ e, decode s.cfg w = .error e ∧ runWord w s = .refused (.notACommandWord e)) := by
  unfold runWord
  cases hd : decode s.cfg w with
  | error e => exact .inr (.inr ⟨e, rfl, rfl⟩)
  | ok i =>
    cases hm : mustWait i s with
    | true => exact .inl ⟨i, rfl, hm, by simp [hm]⟩
    | false => exact .inr (.inl ⟨i, rfl, hm, by simp [hm, exec_eq_carryOut]⟩)

/-- What the controller does with no event outstanding. -/
theorem controller_cases (s : State) :
    (s.rst = true ∧ controller s = .next (resetEdge s)) ∨
    (∃ b, s.rst = false ∧ s.phase = .busy b ∧ controller s = finishBusy b s) ∨
    (s.rst = false ∧ s.phase = .idle ∧ s.cmds = [] ∧ controller s = .next (quiet s)) ∨
    (∃ w ws, s.rst = false ∧ s.phase = .idle ∧ s.cmds = w :: ws ∧
      controller s = runWord w { s with cmds := ws, cmdValid := false }) := by
  unfold controller
  cases s.rst with
  | true => exact .inl ⟨rfl, rfl⟩
  | false =>
    right
    cases s.phase with
    | busy b => exact .inl ⟨b, rfl, rfl, rfl⟩
    | idle =>
      right
      cases s.cmds with
      | nil => exact .inl ⟨rfl, rfl, rfl, rfl⟩
      | cons w ws => exact .inr ⟨w, ws, rfl, rfl, rfl, rfl⟩

/-- An idle controller out of reset takes the host's next command. -/
theorem controller_word {s : State} {w : Nat} {ws : List Nat} (hr : s.rst = false) (hp : s.phase = .idle)
    (hc : s.cmds = w :: ws) : controller s = runWord w { s with cmds := ws, cmdValid := false } := by
  unfold controller
  rw [hr, hp, hc]
  rfl

/-- What finishing a command in progress does. -/
theorem finishBusy_cases (b : Busy) (s : State) :
    (hangs b s = false ∧ finishBusy b s = .next (finalEdge b (performAll s (pending b s)))) ∨
    (hangs b s = true ∧ finishBusy b s = .fault .storageNeverAnswers) := by
  unfold finishBusy
  cases h : hangs b s <;> simp

/-- The storage memory stays canonical when a slot is scrambled. -/
theorem wf_scrambleSlot {s : State} (b : Busy) (h : Memory.wf s.cfg s.mem) :
    Memory.wf s.cfg (scrambleSlot b s).mem := by
  unfold scrambleSlot; split
  · exact wf_writeFrom _ _ _ h
  · exact h

/-- A clock edge with rst = 0 is an edge of the command in progress. -/
theorem clockEdge_busy {s : State} {b : Busy} (hr : s.rst = false) (hp : s.phase = .busy b) :
    clockEdge s = busyEdge b s := by
  unfold clockEdge
  rw [hr, hp]
  rfl

/-- A clock edge of a busy controller at which the storage memory performs its next transaction. -/
theorem busyEdge_performs {s : State} {b : Busy} {t : Txn} {ts : List Txn} (hp : pending b s = t :: ts)
    (h : performs b s t = true) :
    busyEdge b s = { performTxn s t with phase := .busy { b with done := b.done + 1, awaiting := false } } := by
  unfold busyEdge
  rw [hp]
  exact if_pos h

/-- A clock edge of a busy controller with no transaction left. -/
theorem busyEdge_final {s : State} {b : Busy} (hp : pending b s = []) : busyEdge b s = finalEdge b s := by
  unfold busyEdge
  rw [hp]

/-- A clock edge keeps the host's commands. -/
theorem clockEdge_cmds (s : State) : (clockEdge s).cmds = s.cmds := by
  rcases clockEdge_cases s with ⟨_, h⟩ | ⟨_, _, h⟩ | ⟨b, _, _, h⟩ <;> rw [h]
  · simp
  · rcases busyEdge_cases b s with ⟨_, _, _, _, h⟩ | ⟨_, _, _, _, _, _, _, h⟩ | ⟨_, _, _, _, _, h⟩ | ⟨_, h⟩ <;> rw [h]
    · simp
    · rw [finalEdge_eq]; split <;> simp

/-- A clock edge keeps the configuration (R37). -/
theorem clockEdge_cfg (s : State) : (clockEdge s).cfg = s.cfg := by
  rcases clockEdge_cases s with ⟨_, h⟩ | ⟨_, _, h⟩ | ⟨b, _, _, h⟩ <;> rw [h]
  · simp
  · rcases busyEdge_cases b s with ⟨_, _, _, _, h⟩ | ⟨_, _, _, _, _, _, _, h⟩ | ⟨_, _, _, _, _, h⟩ | ⟨_, h⟩ <;> rw [h]
    · simp
    · rw [finalEdge_eq]; split <;> simp

/-- What reset does to the slot of the command it abandons (R133). -/
theorem abandon_busy {s : State} {b : Busy} (hp : s.phase = .busy b) :
    abandon s = if b.raced || (pending b s).head?.any Txn.we then scrambleSlot b s else s := by rw [abandon, hp]

/-- A rising edge at which a command is presented to a ready controller accepts it. -/
theorem risingEdge_accepts {s : State} {w : Nat} {ws : List Nat} {i : Instr} (hv : s.cmdValid = true)
    (hr : s.rst = false) (hp : s.phase = .idle) (hc : s.cmds = w :: ws) (hd : decode s.cfg w = .ok i) :
    risingEdge s = .next (accept i { s with cmds := ws, cmdValid := false }) := by
  have : cmdReady s = true := by rw [cmdReady, hp, hr]; rfl
  unfold risingEdge
  rw [hv, this, hc]
  simp only [Bool.and_self]
  rw [hd]

/-- A rising edge at which no command is accepted is an edge of the controller. -/
theorem risingEdge_of_not_taken {s : State} (h : (s.cmdValid && cmdReady s) = false) :
    risingEdge s = .next (clockEdge s) := by
  unfold risingEdge
  rw [h]

/-- cmd_ready depends on the phase and rst only (R60). -/
theorem cmdReady_congr {s t : State} (h1 : s.phase = t.phase) (h2 : s.rst = t.rst) : cmdReady s = cmdReady t := by
  rw [cmdReady, cmdReady, h1, h2]

/-- The request on the storage port depends on the configuration, the registers, the phase and rst only (R43). -/
theorem portRequest_congr {s t : State} (h1 : s.cfg = t.cfg) (h2 : s.regs = t.regs) (h3 : s.phase = t.phase)
    (h4 : s.rst = t.rst) : portRequest s = portRequest t := by
  unfold portRequest
  rw [h3]
  split
  · rfl
  · rw [h4, pending_congr _ h1 h2]

/-- An edge with rst = 0 while a command is in progress is one of that command's edges, whatever the host presents. -/
theorem step_edge_busy {s : State} {b : Busy} {es : List EnvEvent} (he : s.env = .edge :: es) (hr : s.rst = false)
    (hb : s.phase = .busy b) : step s = .next (busyEdge b { quiet s with env := es }) := by
  rw [step_event he]
  refine (risingEdge_of_not_taken (s := { quiet s with env := es }) ?_).trans
    (congrArg _ (clockEdge_busy (s := { quiet s with env := es }) hr hb))
  simp [cmdReady, hb]

/-- What the completion of a command that no other agent raced with leaves. -/
theorem completed_eq {b : Busy} (s : State) (h : b.raced = false) :
    completed b s = { s with
      regs := (busyPlan b s).regs, phase := .idle, mem := (performAll s (pending b s)).mem,
      draws := (performAll s (pending b s)).draws, rsp := some (busyPlan b s).rsp, trace := (busyPlan b s).trace,
      bus := (busyPlan b s).txns, copyUse := (busyPlan b s).copyUse } := by
  rw [completed, finalEdge_of_no_race h,
    busyPlan_congr b (s := performAll s _) (t := s) (performAll_cfg s _) (performAll_regs s _), performAll_eq]
  rfl

/-- A byte outside the slot of the command in progress is not scrambled. -/
theorem byteAt_scrambleSlot (b : Busy) (s : State) {x : Nat}
    (h : ∀ t ∈ (busyPlan b s).txns, ¬ InSlot s.cfg t.addr t.len x) : (scrambleSlot b s).byteAt x = s.byteAt x := by
  unfold scrambleSlot
  split
  · rename_i t ht
    refine read_writeFrom_ne _ (fun k hk he => h t (List.mem_of_mem_head? ht) ⟨k, ?_, he⟩) _
    simpa [freeBytes] using hk
  · rfl

/-- One more step after a run. -/
theorem runSteps_succ {k : Nat} : ∀ {s t : State}, runSteps k s = .next t → runSteps (k + 1) s = step t := by
  induction k with
  | zero =>
    intro s t h
    cases h
    simp only [runSteps]
    split <;> simp_all
  | succ k ih =>
    intro s t h
    rw [runSteps] at h ⊢
    cases hs : step s with
    | next v => rw [hs] at h; exact ih h
    | fault _ => rw [hs] at h; cases h
    | refused _ => rw [hs] at h; cases h

/-! ### The command in progress -/

/-- How many bytes a command's slot has depends on the registers only. -/
theorem length_slotSeen_congr (i : Instr) {s t : State} (h : s.regs = t.regs) :
    (slotSeen i s).length = (slotSeen i t).length := by cases i <;> simp [slotSeen, h]

/-- What a command in progress must be depends on the configuration and the registers only. -/
theorem Busy.Inv_congr {b : Busy} {s t : State} (h1 : s.cfg = t.cfg) (h2 : s.regs = t.regs) (h : Busy.Inv s b) :
    Busy.Inv t b :=
  ⟨h1 ▸ h.1, length_slotSeen_congr _ h2 ▸ h.2.1, busyPlan_congr b h1 h2 ▸ h.2.2.1,
    pending_congr b h1 h2 ▸ h.2.2.2⟩

/-- The invariant of the command in progress depends on the configuration, the registers and the phase only. -/
theorem phaseInv_congr {s t : State} (h1 : s.cfg = t.cfg) (h2 : s.regs = t.regs) (h3 : s.phase = t.phase)
    (h : phaseInv s) : phaseInv t := by
  unfold phaseInv at *
  rw [← h3]
  cases hp : s.phase with
  | idle => trivial
  | busy b => rw [hp] at h; exact Busy.Inv_congr h1 h2 h

theorem length_readTxns (a n : Nat) (x y : List Byte) : (readTxns a n x).length = (readTxns a n y).length := by
  unfold readTxns; split <;> rfl

theorem length_writeTxns (a n : Nat) (x y : List Byte) : (writeTxns a n x).length = (writeTxns a n y).length := by
  unfold writeTxns; split <;> rfl

/-- The number of a command's transactions does not depend on the bytes it reads. -/
theorem length_txns_planOf (c : Params) (r : Regs) (i : Instr) (x y : List Byte) :
    (planOf c r x i).txns.length = (planOf c r y i).txns.length := by
  cases i with
  | enq p w =>
    simp only [planOf, planEnq]
    split
    · rfl
    · split
      · rfl
      · simp only [List.length_append]
        rw [length_writeTxns _ _ (storedBytes c r w x) (storedBytes c r w y)]
        congr 1
        split
        · exact length_readTxns _ _ _ _
        · rfl
  | deq p =>
    simp only [planOf, planDeq]
    split
    · rfl
    · simp only [List.length_append]
      congr 1
      split
      · exact length_readTxns _ _ _ _
      · rfl
  | _ => rfl

/-- The request of a command's first transaction does not depend on the bytes it reads: a read drives no data, and a
command whose first transaction is a write reads nothing it would write. -/
theorem request_head_planOf (c : Params) (r : Regs) (i : Instr) (x y : List Byte) :
    (planOf c r x i).txns.head?.map Txn.request = (planOf c r y i).txns.head?.map Txn.request := by
  cases i with
  | enq p w =>
    cases p
    · rfl
    · cases hf : full r
      · simp only [planOf, planEnq_stores hf]
        cases hc : r.copyEn
        · simp [storedBytes, hc]
        · by_cases hz : r.esize = 0 <;> simp [readTxns, writeTxns, Txn.request, hz]
      · simp only [planOf, planEnq_full hf]
  | deq p =>
    cases he : empty r
    · simp only [planOf, planDeq_removes he]
      cases hp : (p || r.printEn)
      · simp
      · by_cases hz : r.esize = 0 <;> simp [readTxns, writeTxns, Txn.request, hz]
    · simp only [planOf, planDeq_empty he]
  | init p b c e => cases p <;> rfl
  | _ => rfl

@[simp] theorem Txn.request_we (t : Txn) : t.request.we = t.we := by unfold Txn.request; split <;> rfl

theorem len_of_mem_readTxns {a n : Nat} {d : List Byte} {t : Txn} (h : t ∈ readTxns a n d) :
    t.addr = a ∧ t.len = n := by
  unfold readTxns at h; split at h <;> simp at h; subst h; exact ⟨rfl, rfl⟩

theorem len_of_mem_writeTxns {a n : Nat} {d : List Byte} {t : Txn} (h : t ∈ writeTxns a n d) :
    t.addr = a ∧ t.len = n := by
  unfold writeTxns at h; split at h <;> simp at h; subst h; exact ⟨rfl, rfl⟩

/-- Every transaction of a command is as long as its slot. -/
theorem len_txns_planOf {i : Instr} {s : State} {seen : List Byte} {t : Txn}
    (h : t ∈ (planOf s.cfg s.regs seen i).txns) : t.len = (slotSeen i s).length := by
  cases i with
  | enq p w =>
    simp only [planOf, planEnq, slotSeen, length_enqSlot] at *
    split at h
    · simp [answerPlan] at h
    · split at h
      · simp [answerPlan] at h
      · rcases List.mem_append.1 h with h | h
        · split at h
          · exact (len_of_mem_readTxns h).2
          · simp at h
        · exact (len_of_mem_writeTxns h).2
  | deq p =>
    simp only [planOf, planDeq, slotSeen, length_deqSlot] at *
    split at h
    · simp [answerPlan] at h
    · rcases List.mem_append.1 h with h | h <;> split at h
      · exact (len_of_mem_readTxns h).2
      · simp at h
      · exact (len_of_mem_writeTxns h).2
      · simp at h
  | init p b c e => cases p <;> simp [planOf, planInit, answerPlan] at h
  | _ => simp [planOf, planQfull, planQempty, planSetcopy, planSetprint, planRsv, answerPlan] at h

end Sys2Proof.Machine
end

