-- ==== Sys2Proof/Tests/Slice0.lean ====
section
/-! SUPPORT. Tests, with expected results from spec/95_test_vectors.md (the vector is named) or written out from the
encoding tables of 30_encoding.md, and for every obligation with hypotheses a concrete state and operands that meet
them. -/

namespace Sys2Proof.Tests

open Sys2Proof Sys2Proof.Machine

/-- A vector's start state in a configuration: the eight registers, RDATA and the storage bytes it lists. -/
def start (c : Params) (cap esize base head tail count : Nat) (copyEn printEn : Bool) (rdata : List Byte := zeros 7)
    (mem : List Host.Cell := []) : State :=
  { State.resetOf c with
    regs := ⟨cap, esize, base, head, tail, count, copyEn, printEn, rdata⟩
    mem := mem }

/-- What a vector lists of the end: the registers, the storage bytes, the response, the transactions, the trace. -/
structure End where
  regs : Regs
  mem : List Host.Cell
  rsp : Option Response
  bus : List Txn
  trace : Option TraceEvent
  deriving DecidableEq, Repr

def ends (o : Host.Outcome State Fault Refusal) : Option End :=
  match o with
  | .next t => some ⟨t.regs, t.mem, t.rsp, t.bus, t.trace⟩
  | .fault _ => none
  | .refused _ => none

abbrev ex : Params := .exampleConfig

/-- The example configuration with the rows of ORF that a vector uses. -/
abbrev orf (rows : List CopyRow) : Params := { Params.exampleConfig with copyTable := rows }

abbrev ok : Option Response := some ⟨.ok, false⟩

/-! ### WellFormed refuses an ill-formed term for each check -/

theorem test_wf_refuses_wide_base : (Instr.init true 0x10000 8 1).wf ex = false := by decide
theorem test_wf_refuses_wide_cap : (Instr.init true 0x1000 16 1).wf ex = false := by decide
theorem test_wf_refuses_wide_esize : (Instr.init true 0x1000 8 8).wf ex = false := by decide
theorem test_wf_refuses_short_bus : (Instr.enq true (zeros 6)).wf ex = false := by decide
theorem test_wf_refuses_long_bus : (Instr.enq false (zeros 8)).wf ex = false := by decide
theorem test_wf_accepts_the_largest_fields :
    (Instr.init true 0xFFFF 15 7).wf ex = true ∧ (Instr.enq true (zeros 7)).wf ex = true := by decide
theorem test_wf_refuses_records : Cmd.wf ex ⟨8, true, 0, 0, 0, zeros 7⟩ = false ∧
    Cmd.wf ex ⟨0, true, 0x10000, 0, 0, zeros 7⟩ = false ∧ Cmd.wf ex ⟨0, true, 0, 16, 0, zeros 7⟩ = false ∧
    Cmd.wf ex ⟨0, true, 0, 0, 8, zeros 7⟩ = false ∧ Cmd.wf ex ⟨3, true, 0, 0, 0, zeros 6⟩ = false := by decide
theorem test_ok_refuses_zero_widths : ¬ Params.WidthsOk { ex with addrW := 0 } ∧ ¬ Params.WidthsOk { ex with capW := 0 } ∧
    ¬ Params.WidthsOk { ex with eszW := 0 } := by decide
theorem test_ok_refuses_narrow_bus : ¬ Params.BusOk { ex with emax := 6 } := by decide
theorem test_ok_refuses_a_short_copy : ¬ Params.CopyOk { ex with copyTable := [⟨2, some [0, 0], [1, 1], [1]⟩] } := by decide
theorem test_ok_refuses_storage0 : ¬ Params.StorageOk { ex with storage0 := [(5, 1), (4, 1)] } ∧
    ¬ Params.StorageOk { ex with storage0 := [(4, 0)] } ∧ ¬ Params.StorageOk { ex with storage0 := [(0x10000, 1)] } := by
  decide
theorem test_example_configuration_ok : ex.Ok := by decide

/-! ### Decoding: words written out from R58 and R59 -/

/-- V-C1, W = {F_ESIZE = 001, F_CAP = 1000, F_BASE = 0x1000, OP = 000, P = 1}. -/
theorem test_decode_init : decode ex 0b001_1000_0001000000000000_000_1 = .ok (.init true 0x1000 8 1) := by rfl
/-- 95_test_vectors.md P1 step 13. -/
theorem test_decode_qfull : decode ex 0b001_0 = .ok .qfull := by rfl
/-- V-C5 and V-C6. -/
theorem test_decode_qempty : decode ex 0b010_0 = .ok .qempty ∧ decode ex 0b010_1 = .ok .qempty := ⟨rfl, rfl⟩
/-- V-C2: WDATA lane 0 = W[34:27] = 0x61. -/
theorem test_decode_enq :
    decode ex 0b01100001_000_0000_0000000000000000_011_1 = .ok (.enq true [0x61, 0, 0, 0, 0, 0, 0]) := by rfl
/-- V-C3 and V-C4. -/
theorem test_decode_deq : decode ex 0b100_1 = .ok (.deq true) ∧ decode ex 0b100_0 = .ok (.deq false) := ⟨rfl, rfl⟩
/-- 95_test_vectors.md P3 step 5, and header 1010 of R68. -/
theorem test_decode_setcopy : decode ex 0b101_1 = .ok (.setcopy true) ∧ decode ex 0b101_0 = .ok (.setcopy false) :=
  ⟨rfl, rfl⟩
/-- 95_test_vectors.md P3 step 6, and header 1100 of R68. -/
theorem test_decode_setprint : decode ex 0b110_1 = .ok (.setprint true) ∧ decode ex 0b110_0 = .ok (.setprint false) :=
  ⟨rfl, rfl⟩
/-- 95_test_vectors.md P3 step 11 and V-C7. -/
theorem test_decode_rsv : decode ex 0b111_0 = .ok .rsv ∧ decode ex 0b111_1 = .ok .rsv := ⟨rfl, rfl⟩
/-- R58: CW = 83 in the example configuration. -/
theorem test_decode_rejects_wide_words : wordBits ex = 83 ∧ decode ex (2 ^ 83) = .error .widerThanThePorts := ⟨rfl, rfl⟩
/-- V-C8 the other way. -/
theorem test_encode_enq : encode ex (.enq true [1, 2, 3, 4, 5, 6, 7]) = 0x038302820181008000007 := by decide
/-- R59: "Every one of the 16 headers decodes to exactly one row." -/
theorem test_opcode_rows_cover_and_exclude : ∀ h : Fin 16, (rowsOf h).length = 1 := by decide

/-! ### One command each -/

/-- V-I3. -/
theorem test_init_on_a_live_buffer :
    ends (exec (.init true 0x2000 4 2)
      (start ex 8 1 0x1000 3 5 2 true true [0x61, 0, 0, 0, 0, 0, 0] [(0x1003, 0x64), (0x1004, 0x65)])) =
    some ⟨⟨4, 2, 0x2000, 0, 0, 0, false, false, [0x61, 0, 0, 0, 0, 0, 0]⟩, [(0x1003, 0x64), (0x1004, 0x65)], ok, [],
      none⟩ := by decide
/-- V-I2. -/
theorem test_init_null :
    ends (exec (.init false 0 0 0) (start ex 8 1 0x1000 3 5 2 true true)) =
    some ⟨⟨8, 1, 0x1000, 3, 5, 2, true, true, zeros 7⟩, [], some ⟨.invalidArgument, false⟩, [], none⟩ := by decide
/-- V-Q7 and V-Q1. -/
theorem test_qfull : ends (exec .qfull (start ex 8 1 0x1000 6 6 8 false false)) =
      some ⟨⟨8, 1, 0x1000, 6, 6, 8, false, false, zeros 7⟩, [], some ⟨.ok, true⟩, [], none⟩ ∧
    ends (exec .qfull State.reset) = some ⟨Regs.reset ex, [], some ⟨.ok, true⟩, [], none⟩ := by decide
/-- V-Q5. -/
theorem test_qfull_not_full : ends (exec .qfull (start ex 8 1 0x1000 2 5 3 false false)) =
    some ⟨⟨8, 1, 0x1000, 2, 5, 3, false, false, zeros 7⟩, [], ok, [], none⟩ := by decide
/-- V-Q8 and V-Q2. -/
theorem test_qempty : ends (exec .qempty (start ex 8 1 0x1000 6 6 8 false false)) =
      some ⟨⟨8, 1, 0x1000, 6, 6, 8, false, false, zeros 7⟩, [], ok, [], none⟩ ∧
    ends (exec .qempty State.reset) = some ⟨Regs.reset ex, [], some ⟨.ok, true⟩, [], none⟩ := by decide
/-- V-E12: the slot wraps to address 0. -/
theorem test_enq_wraps_the_address_space :
    ends (exec (.enq true [1, 2, 3, 4, 0, 0, 0]) (start ex 2 4 0xFFFE 0 0 0 false false)) =
    some ⟨⟨2, 4, 0xFFFE, 0, 1, 1, false, false, zeros 7⟩, [(0, 3), (1, 4), (0xFFFE, 1), (0xFFFF, 2)], ok,
      [⟨true, 0xFFFE, 4, [1, 2, 3, 4]⟩], none⟩ := by decide
/-- V-E13, with PRINT_EN = 1: the copy unit ORs the old byte; the event of R89 carries the stored byte. -/
theorem test_enq_through_the_copy_unit :
    ends (exec (.enq true [0xF0, 0, 0, 0, 0, 0, 0])
      (start (orf [⟨1, some [0x0F], [0xF0], [0xFF]⟩]) 4 1 0x3000 0 1 1 true true (zeros 7) [(0x3001, 0x0F)])) =
    some ⟨⟨4, 1, 0x3000, 0, 2, 2, true, true, zeros 7⟩, [(0x3001, 0xFF)], ok,
      [⟨false, 0x3001, 1, [0x0F]⟩, ⟨true, 0x3001, 1, [0xFF]⟩],
      some ⟨.enq, 1, [0xFF, 0, 0, 0, 0, 0, 0], 0, 2, 2⟩⟩ := by decide
/-- V-D9: the upper lanes of RDATA are kept. -/
theorem test_deq_keeps_the_upper_lanes :
    ends (exec (.deq true) (start ex 4 2 0x2000 2 3 1 false false [0x11, 0x22, 0x33, 0x44, 0x55, 0x66, 0x77]
      [(0x2004, 0xA0), (0x2005, 0xB0)])) =
    some ⟨⟨4, 2, 0x2000, 3, 3, 0, false, false, [0xA0, 0xB0, 0x33, 0x44, 0x55, 0x66, 0x77]⟩, [], ok,
      [⟨false, 0x2004, 2, [0xA0, 0xB0]⟩, ⟨true, 0x2004, 2, [0, 0]⟩], none⟩ := by decide
/-- V-D12: a discard reads the slot for the trace. -/
theorem test_deq_discard_traces :
    ends (exec (.deq false) (start ex 4 1 0x3000 0 2 2 false true (zeros 7) [(0x3000, 0x41), (0x3001, 0x42)])) =
    some ⟨⟨4, 1, 0x3000, 1, 2, 1, false, true, zeros 7⟩, [(0x3001, 0x42)], ok,
      [⟨false, 0x3000, 1, [0x41]⟩, ⟨true, 0x3000, 1, [0]⟩],
      some ⟨.deq, 1, [0x41, 0, 0, 0, 0, 0, 0], 1, 2, 1⟩⟩ := by decide
/-- V-H2. -/
theorem test_setcopy_off : ends (exec (.setcopy false) (start ex 8 1 0x1000 0 0 0 true false)) =
    some ⟨⟨8, 1, 0x1000, 0, 0, 0, false, false, zeros 7⟩, [], ok, [], none⟩ := by decide
/-- V-H1. -/
theorem test_setcopy_on : ends (exec (.setcopy true) (start ex 8 1 0x1000 0 0 0 false false)) =
    some ⟨⟨8, 1, 0x1000, 0, 0, 0, true, false, zeros 7⟩, [], ok, [], none⟩ := by decide
/-- V-H3. -/
theorem test_setprint_on : ends (exec (.setprint true) (start ex 8 1 0x1000 0 0 0 false false)) =
    some ⟨⟨8, 1, 0x1000, 0, 0, 0, false, true, zeros 7⟩, [], ok, [], none⟩ := by decide
/-- V-H4. -/
theorem test_setprint_off : ends (exec (.setprint false) (start ex 8 1 0x1000 0 0 0 false true)) =
    some ⟨⟨8, 1, 0x1000, 0, 0, 0, false, false, zeros 7⟩, [], ok, [], none⟩ := by decide
/-- V-R2. -/
theorem test_rsv : ends (exec .rsv (start ex 8 1 0x1000 1 3 2 true true)) =
    some ⟨⟨8, 1, 0x1000, 1, 3, 2, true, true, zeros 7⟩, [], some ⟨.invalidArgument, false⟩, [], none⟩ := by decide

/-! ### Steps -/

/-- P1 step 1, run by `step` from reset as the host's first command. -/
theorem test_step_runs_the_first_word :
    ends (step (State.reset.withFetchWord 83 0x000000000000001801001)) =
    some ⟨⟨8, 1, 0x0100, 0, 0, 0, false, false, zeros 7⟩, [], ok, [], none⟩ := by decide
theorem test_decode_table_word : decodeTableWord 8 0b1001 = some (.deq true) := by rfl
/-- V-X1: a reset edge in a used state; the storage keeps its bytes. -/
theorem test_reset_edge :
    ends (step { start ex 8 1 0x1000 3 5 2 true true (zeros 7) [(0x1003, 0x64)] with env := [.rst true] }) =
    some ⟨Regs.reset ex, [(0x1003, 0x64)], none, [], none⟩ := by decide

/-- R43: a read accepted without its bytes leaves the port, m_valid = 0; its bytes come at a later edge, m_ready = 0 or
not. -/
theorem test_read_awaits_its_bytes :
    (match step { start ex 2 1 0xFFFF 0 1 1 true true (zeros 7) [(0xFFFF, 5)] with
        env := [.edge], mRvalid := false, phase := .busy ⟨.deq true, [5], 0, false, false⟩ } with
      | .next t => t.phase == .busy ⟨.deq true, [5], 0, true, false⟩ && !mValid t
      | _ => false) = true ∧
    (match step { start ex 2 1 0xFFFF 0 1 1 true true (zeros 7) [(0xFFFF, 5)] with
        env := [.edge], mReady := false, phase := .busy ⟨.deq true, [5], 0, true, false⟩ } with
      | .next t => portRequest t == some ⟨true, 0xFFFF, 1, [0]⟩
      | _ => false) = true := by decide
/-- R135 duty 1: cmd_valid is not dropped before acceptance. -/
theorem test_dropping_cmd_valid_is_refused :
    step { State.reset with cmds := [2], cmdValid := true, env := [.cmdValid false] } =
    .refused .commandDroppedWhileWaiting := by rfl

/-- R41: the block at BASE = 0xFFFF of two one-byte slots is 0xFFFF and 0x0000. -/
theorem test_block_wraps : inBlock ex ⟨2, 1, 0xFFFF, 0, 0, 0, false, false, zeros 7⟩ 0xFFFF = true ∧
    inBlock ex ⟨2, 1, 0xFFFF, 0, 0, 0, false, false, zeros 7⟩ 0 = true ∧
    inBlock ex ⟨2, 1, 0xFFFF, 0, 0, 0, false, false, zeros 7⟩ 1 = false ∧
    inBlock ex ⟨2, 1, 0xFFFF, 0, 0, 0, false, false, zeros 7⟩ 0xFFFE = false := by decide

/-! ### Witnesses: every obligation with hypotheses has states and operands that meet them -/

/-- A buffer of two one-byte slots, the first occupied, with both hooks. -/
abbrev half : State := start ex 2 1 0xFFFF 0 1 1 true true (zeros 7) [(0xFFFF, 5)]
/-- A full buffer of two slots, wrapped: TAIL and HEAD at the last slot. -/
abbrev filled : State := start ex 2 1 0xFFFF 1 1 2 false false (zeros 7) [(0, 6), (0xFFFF, 5)]
/-- An empty buffer of the largest capacity and element size, at the last slot. -/
abbrev drained (copyEn : Bool) : State := start ex 15 7 0xFFFF 14 14 0 copyEn false
/-- Slots longer than the whole address space (ADDR_W = 1), the last one free. -/
abbrev tiny : State := start { ex with addrW := 1 } 2 7 1 0 1 1 true true (zeros 7) [(0, 1)]
/-- A DEQ in progress that has performed `done` of its two transactions. -/
abbrev deq5 (done : Nat) (awaiting raced : Bool) : Busy := ⟨.deq true, [5], done, awaiting, raced⟩
/-- The machine with that DEQ in progress. -/
abbrev inDeq (b : Busy) (env : List EnvEvent) : State := { half with env := env, phase := .busy b }
/-- The host's next command is this word. -/
abbrev given (s : State) (w : Nat) : State := { s with cmds := [w] }
/-- The host presents this word. -/
abbrev presented (s : State) (w : Nat) : State := { s with cmds := [w], cmdValid := true }
/-- An empty buffer of six-byte elements with a copy unit that drops the byte after the second. -/
abbrev drop3 : CopyRow := ⟨6, none, [0x41, 0x42, 0x43, 0x44, 1, 2], [0x41, 0x42, 0x43, 0, 1, 2]⟩

theorem witness_DecodeReadsTheFieldsOfTheWord :
    (∀ op : Fin 8, ∃ w < 2 ^ 83, w / 2 % 8 = op.val) ∧ 2 ^ 83 - 1 < 2 ^ (4 + ex.addrW + ex.capW + ex.eszW + 8 * ex.emax) :=
  ⟨fun op => ⟨2 * op.val, by omega, by omega⟩, by decide⟩

theorem witness_DecodeOfEncodeIsTheCommand :
    (Instr.init true 0xFFFF 15 7).wf ex = true ∧ (Instr.enq true (List.replicate 7 0xFF)).wf ex = true ∧
    (Instr.rsv).wf ex = true := by decide

theorem witness_IgnoredFieldsDoNotChangeTheCommand :
    ∀ op : Fin 8, Cmd.wf ex ⟨op.val, true, 0xFFFF, 15, 7, List.replicate 7 0xFF⟩ = true := by decide

theorem witness_AssemblyLinesGiveTheirHeaders :
    (List.replicate 7 (1 : Byte)).length ≤ ex.emax ∧ (∀ b n e, AsmLine.drop ≠ .init b n e) ∧
    (∀ d, AsmLine.drop ≠ .enq d) := by simp [Params.exampleConfig]

theorem witness_StepRunsTheDecodedCommand :
    ((given half 0b1001).env = [] ∧ (given half 0b1001).rst = false ∧ (given half 0b1001).phase = .idle ∧
      decode ex 0b1001 = .ok (.deq true) ∧ ∀ x ∈ (planAt (.deq true) (given half 0b1001)).txns,
        (given half 0b1001).mReady = true ∧ (x.we = true ∨ (given half 0b1001).mRvalid = true)) ∧
    (planAt .qfull { given half 0b0010 with mReady := false }).txns = [] ∧
    (∀ x ∈ (planAt (.deq false) { given (drained true) 0b1000 with mReady := false }).txns, False) :=
  ⟨⟨rfl, rfl, rfl, rfl, by decide⟩, rfl, by decide⟩

theorem witness_CommandWaitsForTheStorageMemory :
    decode ex 0b1001 = .ok (.deq true) ∧ half.env = [] ∧ half.rst = false ∧ half.phase = .idle ∧
    (∃ x ∈ (planAt (.deq true) half).txns, x.we = false) ∧ ∃ x ∈ (planAt (.deq true) half).txns, x.we = true :=
  ⟨rfl, rfl, rfl, rfl, by decide, by decide⟩

theorem witness_CommandTakenExactlyWhenReady :
    (cmdReady { presented half 0b1001 with env := [.edge] } = true ∧ decode ex 0b1001 = .ok (.deq true)) ∧
    cmdReady (inDeq (deq5 0 false false) [.edge]) = false ∧
    cmdReady { presented half 0b1001 with env := [.edge], rst := true } = false ∧ half.cmdValid = false :=
  ⟨⟨rfl, rfl⟩, rfl, rfl, rfl⟩

theorem witness_EdgeByEdgeIsTheAtomicCommand :
    half.rst = false ∧ half.phase = .idle ∧ half.mReady = true ∧ half.mRvalid = true ∧
    (given half 0b1001).cmds = [0b1001] ∧ decode ex 0b1001 = .ok (.deq true) ∧
    (planAt (.deq true) (given half 0b1001)).txns.length = 2 := ⟨rfl, rfl, rfl, rfl, rfl, rfl, by decide⟩

theorem witness_LatencyNeverChangesTheResult :
    (inDeq (deq5 2 false false) [.edge]).env = .edge :: [] ∧ (inDeq (deq5 2 false false) [.edge]).rst = false ∧
    pending (deq5 2 false false) half = [] ∧
    (inDeq (deq5 0 true false) [.mRvalid false]).env = .mRvalid false :: [] ∧
    pending (deq5 0 true false) half ≠ [] ∧ (deq5 0 true false).raced = false :=
  ⟨rfl, rfl, by decide, rfl, by decide, rfl⟩

theorem witness_TransactionsFollowTheStorageHandshake :
    (inDeq (deq5 0 true false) [.edge]).env = .edge :: [] ∧ half.rst = false ∧ half.mReady = true ∧
    half.mRvalid = true ∧ ({ half with mReady := false, mRvalid := false } : State).regs = half.regs ∧
    pending (deq5 0 false false) half = [⟨false, 0xFFFF, 1, [5]⟩, ⟨true, 0xFFFF, 1, [0]⟩] ∧
    pending (deq5 0 true false) half = [⟨false, 0xFFFF, 1, [5]⟩, ⟨true, 0xFFFF, 1, [0]⟩] ∧
    pending (deq5 1 false false) half = [⟨true, 0xFFFF, 1, [0]⟩] :=
  ⟨rfl, rfl, rfl, rfl, rfl, by decide, by decide, by decide⟩

theorem witness_RequestIsHeldUntilItTransfers :
    (portRequest (inDeq (deq5 0 false false) [.agentWrite 0xFFFF 1]) = some ⟨false, 0xFFFF, 1, []⟩ ∧
      (∃ t, step (inDeq (deq5 0 false false) [.agentWrite 0xFFFF 1]) = .next t)) ∧
    portRequest { inDeq (deq5 1 false true) [.edge] with mReady := false } = some ⟨true, 0xFFFF, 1, [0]⟩ ∧
    ∃ t, step { inDeq (deq5 1 false true) [.edge] with mReady := false } = .next t :=
  ⟨⟨by decide, _, rfl⟩, by decide, _, rfl⟩

theorem witness_HostBreachesAreRefused :
    2 ^ (4 + ex.addrW + ex.capW + ex.eszW + 8 * ex.emax) ≤ 2 ^ 83 ∧ (given half (2 ^ 83)).cmds = [2 ^ 83] ∧
    (presented half 2).cmdValid = true ∧ (given half 2).cmdValid = false ∧ (given half 2).cmds ≠ [] ∧
    cmdReady { inDeq (deq5 0 false false) [.changeCommand 1] with cmds := [2], cmdValid := true } = false ∧
    cmdReady { given half 2 with env := [.changeCommand 1] } = true := by decide

theorem witness_NoCommandChangesWhatComesNext : ∃ t, exec .qfull half = .next t := ⟨_, rfl⟩
theorem witness_NoStepChangesTheConfiguration : ∃ t, step State.reset = .next t := ⟨_, rfl⟩
theorem witness_OnlyAHangStopsTheMachine :
    step { inDeq (deq5 0 false false) [] with mReady := false } = .fault .storageNeverAnswers ∧
    step { inDeq (deq5 0 true false) [] with mRvalid := false } = .fault .storageNeverAnswers ∧
    step { inDeq (deq5 0 true false) [] with mReady := false } = .fault .storageNeverAnswers := ⟨rfl, rfl, rfl⟩

theorem witness_InitPresentBuildsAnEmptyBuffer :
    (Instr.init true 0xFFFF 15 7).wf half.cfg = true ∧ (Instr.init true 0 0 0).wf half.cfg = true := by decide
theorem witness_QfullAnswersFull : filled.regs.count = filled.regs.cap ∧ half.regs.count ≠ half.regs.cap := by decide
theorem witness_QemptyAnswersEmpty : (drained true).regs.count = 0 ∧ half.regs.count ≠ 0 := by decide
theorem witness_QueriesAgreeWithTheStatusOutputs : ∃ t, exec (.deq true) half = .next t := ⟨_, rfl⟩

theorem witness_EnqThatDoesNotStoreWritesNothing :
    filled.regs.count = filled.regs.cap ∧ half.regs.Inv half.cfg ∧ half.regs.count ≠ half.regs.cap := by decide
theorem witness_EnqStoresTheElementAtTail :
    (half.cfg.Ok ∧ half.regs.Inv half.cfg ∧ (zeros 7).length = half.cfg.emax ∧ half.regs.count < half.regs.cap) ∧
    (tiny.cfg.Ok ∧ tiny.regs.Inv tiny.cfg ∧ (zeros 7).length = tiny.cfg.emax ∧ tiny.regs.count < tiny.regs.cap ∧
      2 ^ tiny.cfg.addrW < tiny.regs.esize) ∧
    InSlot half.cfg 0 1 0x10000 ∧ ¬ InSlot half.cfg 0 1 1 :=
  ⟨by decide, by decide, ⟨0, by decide, by decide⟩, fun ⟨k, h1, h2⟩ => by
    obtain rfl : k = 0 := by omega
    exact absurd h2 (by decide)⟩

theorem witness_DeqOnEmptyChangesNothing :
    (drained true).regs.count = 0 ∧ half.regs.Inv half.cfg ∧ half.regs.count ≠ 0 := by decide
theorem witness_DeqCopiesTheElementAtHeadOut :
    (filled.cfg.Ok ∧ filled.regs.Inv filled.cfg ∧ 0 < filled.regs.count) ∧
    (tiny.cfg.Ok ∧ tiny.regs.Inv tiny.cfg ∧ 0 < tiny.regs.count) := ⟨by decide, by decide⟩
theorem witness_DeqDiscardLeavesRdata :
    half.cfg.Ok ∧ half.regs.Inv half.cfg ∧ 0 < half.regs.count := by decide

theorem witness_TransactionsAreThoseOfTheTable :
    (∃ t, exec (.enq true (zeros 7)) half = .next t) ∧ (∃ t, exec (.deq false) half = .next t) := ⟨⟨_, rfl⟩, _, rfl⟩
theorem witness_TransactionsFitTheStoragePort :
    tiny.regs.Inv tiny.cfg ∧ ∃ t, exec (.deq true) tiny = .next t ∧ t.bus.length = 2 := ⟨by decide, _, rfl, by decide⟩
theorem witness_TraceEventsAreThoseOfTheRule :
    half.cfg.Ok ∧ half.regs.Inv half.cfg ∧ (half.regs.printEn && storing (.enq true (zeros 7)) half.regs) = true ∧
    (half.regs.printEn && removing (.deq false) half.regs) = true ∧ ∃ t, exec (.deq false) half = .next t :=
  ⟨by decide, by decide, rfl, rfl, _, rfl⟩
theorem witness_CopyUnitIsUsedOnlyByTransfers :
    (half.regs.copyEn && !full half.regs && !empty half.regs) = true ∧ ∃ t, exec (.deq true) half = .next t :=
  ⟨rfl, _, rfl⟩
theorem witness_WithoutACopyUnitCopyEnIsARawCopy : half.cfg.copyTable = [] := rfl

theorem witness_EachCommandRespondsWithItsCodes : ∃ t, exec .rsv half = .next t ∧ t.rsp = some ⟨.invalidArgument, false⟩ :=
  ⟨_, rfl, rfl⟩
theorem witness_FailuresAreAtomic :
    (∃ t, exec (.init false 0 0 0) half = .next t ∧ t.rsp = some ⟨.invalidArgument, false⟩) ∧
    (∃ t, exec (.enq true []) filled = .next t ∧ t.rsp = some ⟨.full, false⟩) ∧
    (∃ t, exec (.deq true) (drained true) = .next t ∧ t.rsp = some ⟨.empty, false⟩) :=
  ⟨⟨_, rfl, rfl⟩, ⟨_, rfl, rfl⟩, _, rfl, rfl⟩
theorem witness_RegistersAreWrittenOnlyByTheirCommands :
    (∃ t, exec .qfull half = .next t) ∧ (¬ ∃ b c e, Instr.qfull = .init true b c e) ∧
    storing .qfull half.regs = false ∧ removing .qfull half.regs = false ∧ (∀ p, Instr.qfull ≠ .setcopy p) ∧
    (∀ p, Instr.qfull ≠ .setprint p) := ⟨⟨_, rfl⟩, by simp, rfl, rfl, by simp, by simp⟩
theorem witness_HooksLiveFromTheirRegistrationToInit :
    (∃ t, exec (.setcopy true) filled = .next t ∧ filled.regs.copyEn = false ∧ t.regs.copyEn = true) ∧
    (∃ t, exec (.setprint true) filled = .next t ∧ filled.regs.printEn = false ∧ t.regs.printEn = true) :=
  ⟨⟨_, rfl, rfl, rfl⟩, _, rfl, rfl, rfl⟩
theorem witness_OnlyTransfersTouchStorage :
    storing (.enq false []) half.regs = false ∧ removing (.enq false []) half.regs = false ∧
    ∃ t, exec (.enq false []) half = .next t := ⟨rfl, rfl, _, rfl⟩

theorem witness_InvariantHoldsAtReset : ex.Ok ∧ tiny.cfg.Ok := by decide
theorem witness_EveryCommandPreservesTheRegisterInvariants :
    half.cfg.Ok ∧ (Instr.enq true (zeros 7)).wf half.cfg = true ∧ half.regs.Inv half.cfg ∧
    ∃ t, exec (.enq true (zeros 7)) half = .next t := ⟨by decide, by decide, by decide, _, rfl⟩
theorem witness_EveryStepKeepsTheInvariant :
    (Sound (presented half 0b1001) ∧ ∃ t, step (presented half 0b1001) = .next t) ∧
    (Sound (inDeq (deq5 0 true true) [.edge]) ∧ ∃ t, step (inDeq (deq5 0 true true) [.edge]) = .next t) :=
  ⟨⟨⟨by decide, by decide, by decide, trivial, by decide⟩, _, rfl⟩, ⟨by decide, by decide, by decide, by
    show Busy.Inv _ _
    decide, by decide⟩, _, rfl⟩
theorem witness_OccupiedSlotsMoveOneAtATime :
    half.regs.Inv half.cfg ∧ storing (.enq true []) half.regs = true ∧ removing (.deq true) half.regs = true ∧
    (∃ t, exec (.enq true []) half = .next t) ∧ ∃ t, exec (.deq true) half = .next t :=
  ⟨by decide, rfl, rfl, ⟨_, rfl⟩, _, rfl⟩

theorem witness_CommandsActOnTheQueueAsAFifo :
    filled.cfg.Ok ∧ filled.regs.Inv filled.cfg ∧ BlockFits filled ∧ ∃ t, exec (.deq true) filled = .next t :=
  ⟨by decide, by decide, by decide, _, rfl⟩
theorem witness_DequeuesReturnTheEnqueuedSequence :
    (drained false).cfg.Ok ∧ (drained false).regs.Inv (drained false).cfg ∧ BlockFits (drained false) ∧
    (drained false).regs.count = 0 ∧ (drained false).regs.copyEn = false ∧
    (List.replicate 15 (zeros 7)).length ≤ (drained false).regs.cap ∧
    ∀ d ∈ List.replicate 15 (zeros 7), d.length = (drained false).cfg.emax := by decide
theorem witness_CapacityManyEnqueuesFillTheBuffer :
    (drained true).cfg.Ok ∧ (drained true).regs.Inv (drained true).cfg ∧ (drained true).regs.count = 0 ∧
    (List.replicate 15 (zeros 7)).length = (drained true).regs.cap := by decide
theorem witness_DequeueThenEnqueueKeepsAFullBufferFull :
    filled.cfg.Ok ∧ filled.regs.Inv filled.cfg ∧ BlockFits filled ∧ 0 < filled.regs.cap ∧
    filled.regs.count = filled.regs.cap ∧ filled.regs.copyEn = false ∧ (zeros 7).length = filled.cfg.emax := by decide
theorem witness_RoundTripThroughTheCopyUnit :
    let s := start (orf [drop3]) 4 6 0x0800 0 0 0 true false
    (s.cfg.Ok ∧ s.regs.Inv s.cfg ∧ BlockFits s ∧ s.regs.count = 0 ∧ 0 < s.regs.cap ∧ s.regs.copyEn = true ∧
      [0x41, 0x42, 0x43, 0x44, 1, 2, 0].length = s.cfg.emax ∧
      copyFn s.cfg 6 (zeros 6) [0x41, 0x42, 0x43, 0x44, 1, 2] = [0x41, 0x42, 0x43, 0, 1, 2]) ∧
    (∀ old old' x : List Byte, old.length = 6 → old'.length = 6 → x.length = 6 →
      copyFn s.cfg 6 old x = copyFn s.cfg 6 old' x) ∧
    (∀ old x : List Byte, old.length = 6 → x.length = 6 →
      copyFn s.cfg 6 old (copyFn s.cfg 6 old x) = copyFn s.cfg 6 old x) := by
  refine ⟨by decide, fun _ _ _ _ _ _ => rfl, fun old x _ hx => ?_⟩
  by_cases h : x = drop3.src
  · subst h; rfl
  · have : ∀ y : List Byte, y ≠ drop3.src → copyFn (orf [drop3]) 6 old y = lanes y 6 := fun y hy => by
      simp only [copyFn, List.find?, show (drop3.src == y) = false from by simpa using Ne.symm hy, Bool.and_false]
    show copyFn (orf [drop3]) 6 old (copyFn (orf [drop3]) 6 old x) = copyFn (orf [drop3]) 6 old x
    rw [this _ h, lanes_of_length hx, this _ h, lanes_of_length hx]

theorem witness_ResetEdgeResetsEveryRegister :
    ({ half with env := [.rst true] } : State).env = .rst true :: [] ∧
    (({ half with env := [.edge], rst := true } : State).rst = true ∧
      ({ half with env := [.edge], rst := true } : State).env = .edge :: []) ∧
    ({ half with rst := true } : State).rst = true ∧ half.env = [] ∧ half.phase = .idle :=
  ⟨rfl, ⟨rfl, rfl⟩, rfl, rfl, rfl⟩
theorem witness_ResetLeavesAnInertBuffer : State.reset.regs = Regs.reset State.reset.cfg := rfl
theorem witness_ResetDuringACommandAbandonsIt :
    (inDeq (deq5 0 false false) [.rst true]).env = .rst true :: [] ∧
    (∀ x ∈ (pending (deq5 0 false false) half).head?, x.we = false) ∧
    (∃ x, (pending (deq5 1 false false) half).head? = some x ∧ x.we = true) :=
  ⟨rfl, by decide, ⟨true, 0xFFFF, 1, [0]⟩, by decide, rfl⟩
theorem witness_AgentsBetweenCommandsTouchOnlyTheirByte :
    half.phase = .idle ∧ ({ half with env := [.agentWrite 0xFFFF 1] } : State).env = .agentWrite 0xFFFF 1 :: [] ∧
    ({ half with env := [.agentRead 0] } : State).env = .agentRead 0 :: [] := ⟨rfl, rfl, rfl⟩
theorem witness_ARaceIsConfinedToTheSlot :
    (inDeq (deq5 2 false true) [.edge]).env = .edge :: [] ∧ half.rst = false ∧
    pending (deq5 2 false true) half = [] := ⟨rfl, rfl, by decide⟩
theorem witness_StatusOutputsHoldDuringACommand :
    (inDeq (deq5 1 false false) [.edge]).env = .edge :: [] ∧ half.rst = false ∧
    pending (deq5 1 false false) half ≠ [] := ⟨rfl, rfl, by decide⟩

end Sys2Proof.Tests
end

/-! PROOFS of the family 00_scope.md: a step of an idle controller runs the host's command, and the clock edges and the
handshakes decide when a command completes, never what it does (R6). -/

namespace Sys2Proof.Machine

/-! ### The completion of the command in progress -/

/-- After its next transaction, the command has the others left. -/
theorem pending_performTxn {b : Busy} {s : State} {x : Txn} {xs : List Txn} (hp : pending b s = x :: xs)
    (a : Bool) (p : Phase) :
    pending { b with done := b.done + 1, awaiting := a } { performTxn s x with phase := p } = xs := by
  have hplan : (busyPlan { b with done := b.done + 1, awaiting := a } { performTxn s x with phase := p }).txns =
      (busyPlan b s).txns := by simp [busyPlan]
  rw [pending] at hp
  rw [pending, hplan, ← List.tail_drop, hp, List.tail_cons]

/-- Performing a command's next transaction leaves its completion as it is. -/
theorem completed_performTxn {b : Busy} {s : State} {x : Txn} {xs : List Txn} (hr : b.raced = false)
    (hp : pending b s = x :: xs) (a : Bool) (p : Phase) :
    completed { b with done := b.done + 1, awaiting := a } { performTxn s x with phase := p } = completed b s := by
  obtain ⟨hm, hd⟩ := performAll_congr xs (s := { performTxn s x with phase := p }) (t := performTxn s x) rfl rfl rfl
  rw [completed_eq _ (by exact hr), completed_eq _ hr, pending_performTxn hp, hp, performAll_cons, hm, hd]
  simp [busyPlan]

/-- That a read has transferred and awaits its bytes leaves the command's completion as it is. -/
theorem completed_awaiting {b : Busy} (hr : b.raced = false) (s : State) (a : Bool) (p : Phase) :
    completed { b with awaiting := a } { s with phase := p } = completed b s := by
  obtain ⟨hm, hd⟩ := performAll_congr (pending b s) (s := { s with phase := p }) (t := s) rfl rfl rfl
  rw [completed_eq _ (by exact hr), completed_eq _ hr, ← hm, ← hd]
  rfl

@[simp] theorem completed_phase (b : Busy) (s : State) : (completed b s).phase = .idle := by
  rw [completed, finalEdge_eq, commit_phase]

theorem completed_mReady {b : Busy} (hr : b.raced = false) (s : State) : (completed b s).mReady = s.mReady := by
  rw [completed_eq _ hr]

theorem completed_mRvalid {b : Busy} (hr : b.raced = false) (s : State) : (completed b s).mRvalid = s.mRvalid := by
  rw [completed_eq _ hr]

/-- A command's completion depends neither on what stood on the ports nor on what the platform does next. -/
theorem completed_event {b : Busy} (hr : b.raced = false) (s : State) (es : List EnvEvent) :
    completed b { quiet s with env := es } = { completed b s with env := es } := by
  obtain ⟨hm, hd⟩ := performAll_congr (pending b s) (s := { quiet s with env := es }) (t := s) rfl rfl rfl
  rw [completed_eq _ hr, completed_eq _ hr, ← hm, ← hd]
  rfl

/-- The levels of m_ready and m_rvalid do not decide what a command's completion does. -/
theorem completed_levels {b : Busy} (hr : b.raced = false) (s : State) (r v : Bool) :
    completed b { s with mReady := r, mRvalid := v } = { completed b s with mReady := r, mRvalid := v } := by
  obtain ⟨hm, hd⟩ := performAll_congr (pending b s) (s := { s with mReady := r, mRvalid := v }) (t := s) rfl rfl rfl
  rw [completed_eq _ hr, completed_eq _ hr, ← hm, ← hd]
  rfl

/-- The completion of a command just accepted is the command carried out at once (R6). -/
theorem completed_accept (i : Instr) (s : State) :
    completed ⟨i, slotSeen i s, 0, false, false⟩ (accept i s) = carryOut (planAt i s) s := by
  obtain ⟨hm, hd⟩ := performAll_congr (planAt i s).txns (s := accept i s) (t := s) rfl rfl rfl
  rw [completed_eq _ rfl, carryOut_eq, ← hm, ← hd]
  rfl

/-- A command does the same whatever stands on the ports and whatever events are outstanding. -/
theorem carryOut_quiet (i : Instr) (s : State) (es : List EnvEvent) :
    { carryOut (planAt i (quiet s)) (quiet s) with env := es } =
      carryOut (planAt i { s with env := es }) { s with env := es } := by
  rw [planAt_congr i (s := quiet s) (t := { s with env := es }) rfl rfl rfl]
  obtain ⟨hm, hd⟩ := performAll_congr (planAt i { s with env := es }).txns (s := quiet s) (t := { s with env := es })
    rfl rfl rfl
  rw [carryOut_eq, carryOut_eq, hm, hd]
  rfl

/-- An edge of a command that no other agent raced with completes it, or leaves it in progress with the same
completion. -/
theorem busyEdge_keeps_completed {b : Busy} {s : State} (hr : b.raced = false) (hb : s.phase = .busy b) :
    busyEdge b s = completed b s ∨
    ∃ b', (busyEdge b s).phase = .busy b' ∧ b'.raced = false ∧ (busyEdge b s).rsp = s.rsp ∧
      (busyEdge b s).regs = s.regs ∧ completed b' (busyEdge b s) = completed b s := by
  rcases busyEdge_cases b s with ⟨x, xs, hp, -, h⟩ | ⟨x, xs, -, -, -, -, -, h⟩ | ⟨x, xs, -, -, -, h⟩ | ⟨hp, h⟩
  · rw [h]
    exact .inr ⟨_, rfl, hr, performTxn_rsp s x, performTxn_regs s x, completed_performTxn hr hp _ _⟩
  · rw [h]
    exact .inr ⟨_, rfl, hr, rfl, rfl, completed_awaiting hr s _ _⟩
  · rw [h]
    exact .inr ⟨b, hb, hr, rfl, rfl, rfl⟩
  · rw [h, completed, hp, performAll_nil]
    exact .inl rfl

/-- Settles O10: an edge keeps the completion of the command in progress or is it, and the levels of m_ready and
m_rvalid are no part of the completion. -/
theorem latencyNeverChangesTheResult : Obligations.LatencyNeverChangesTheResult := by
  intro s b e es he hrst hb hr hev
  have hc : completed b { quiet s with env := es } = { completed b s with env := es } := completed_event hr s es
  rcases hev with rfl | ⟨level, rfl | rfl⟩
  · refine ⟨_, step_edge_busy he hrst hb, ?_⟩
    rcases busyEdge_keeps_completed hr (s := { quiet s with env := es }) hb with h | ⟨b', hb', hr', hrsp, hregs, h⟩
    · rw [h, hc]
      exact .inl ⟨completed_phase b s, rfl⟩
    · refine .inr ⟨b', hb', hrsp, hregs, ?_⟩
      rw [completed_levels hr', h, hc]
      simp [completed_mReady hr, completed_mRvalid hr]
  · exact ⟨_, step_event he, .inr ⟨b, hb, rfl, rfl, hc⟩⟩
  · exact ⟨_, step_event he, .inr ⟨b, hb, rfl, rfl, hc⟩⟩

/-! ### A command run edge by edge -/

/-- A command in progress before a storage memory that accepts and answers at once, with n transactions left and an edge
outstanding for each of them and one more: no response is shown yet, the registers are still r, and the completion, with
the events es after those edges, is u. -/
structure RunsByEdges (n : Nat) (es : List EnvEvent) (r : Regs) (u s : State) : Prop where
  env : s.env = List.replicate (n + 1) .edge ++ es
  rst : s.rst = false
  mReady : s.mReady = true
  mRvalid : s.mRvalid = true
  rsp : s.rsp = none
  regs : s.regs = r
  busy : ∃ b, s.phase = .busy b ∧ b.raced = false ∧ b.awaiting = false ∧ (pending b s).length = n ∧
    { completed b s with env := es } = u

namespace RunsByEdges

variable {n : Nat} {es : List EnvEvent} {r : Regs} {u s : State}

/-- A command in progress keeps cmd_ready at 0 (R60). -/
theorem cmdReady_eq_false (h : RunsByEdges n es r u s) : cmdReady s = false := by
  obtain ⟨b, hb, -⟩ := h.busy
  rw [Machine.cmdReady, hb]

/-- With a transaction left, the next edge performs it. -/
theorem step_performs (h : RunsByEdges (n + 1) es r u s) : ∃ t, step s = .next t ∧ RunsByEdges n es r u t := by
  obtain ⟨b, hb, hr, ha, hlen, hu⟩ := h.busy
  obtain ⟨x, xs, hp, hxs⟩ := List.length_eq_succ_iff.1 hlen
  let q : State := { quiet s with env := List.replicate (n + 1) .edge ++ es }
  have hq : pending b q = x :: xs := hp.symm
  have hserved : performs b q x = true := by simp [performs, served, ha, q, h.mReady, h.mRvalid]
  have hc : completed b q = { completed b s with env := q.env } := completed_event hr s _
  have hdone (p : Phase) := completed_performTxn hr hq false p
  refine ⟨_, (step_edge_busy h.env h.rst hb).trans (congrArg _ (busyEdge_performs hq hserved)), ?_⟩
  exact {
    env := performTxn_env q x
    rst := (performTxn_rst q x).trans h.rst
    mReady := (performTxn_mReady q x).trans h.mReady
    mRvalid := (performTxn_mRvalid q x).trans h.mRvalid
    rsp := performTxn_rsp q x
    regs := (performTxn_regs q x).trans h.regs
    busy := ⟨_, rfl, hr, rfl, (congrArg _ (pending_performTxn hq _ _)).trans hxs,
      (congrArg (fun v : State => { v with env := es }) ((hdone _).trans hc)).trans hu⟩ }

/-- With no transaction left, the next edge completes the command. -/
theorem step_completes (h : RunsByEdges 0 es r u s) : step s = .next u := by
  obtain ⟨b, hb, hr, -, hlen, hu⟩ := h.busy
  have hp : pending b { quiet s with env := es } = [] := List.length_eq_zero_iff.1 hlen
  have hc : completed b { quiet s with env := es } = u := (completed_event hr s es).trans hu
  rw [completed, hp, performAll_nil] at hc
  exact (step_edge_busy h.env h.rst hb).trans (congrArg _ ((busyEdge_final hp).trans hc))

/-- Of n transactions left, k edges perform the first k, for any k up to n. -/
theorem runSteps_performs (h : RunsByEdges n es r u s) {j : Nat} {s₀ : State} (h₀ : runSteps j s₀ = .next s) :
    ∀ k ≤ n, ∃ t, runSteps (j + k) s₀ = .next t ∧ RunsByEdges (n - k) es r u t := by
  intro k
  induction k with
  | zero => exact fun _ => ⟨s, h₀, h⟩
  | succ k ih =>
    intro hk
    obtain ⟨t, ht, hrun⟩ := ih (by omega)
    rw [show n - k = n - (k + 1) + 1 by omega] at hrun
    obtain ⟨t', ht', hrun'⟩ := hrun.step_performs
    exact ⟨t', (runSteps_succ ht).trans ht', hrun'⟩

end RunsByEdges

/-- The host presents its next command (R56). -/
theorem step_presents {s : State} {es : List EnvEvent} {w : Nat} {ws : List Nat} (he : s.env = .cmdValid true :: es)
    (hc : s.cmds = w :: ws) : step s = .next { quiet s with env := es, cmdValid := true } := by
  rw [step_event he]
  simp [environment, setCmdValid, hc]

/-- An edge at which a command is presented to a ready controller accepts it (R60). -/
theorem step_accepts {s : State} {es : List EnvEvent} {w : Nat} {ws : List Nat} {i : Instr} (he : s.env = .edge :: es)
    (hv : s.cmdValid = true) (hr : s.rst = false) (hp : s.phase = .idle) (hc : s.cmds = w :: ws)
    (hd : decode s.cfg w = .ok i) :
    step s = .next (accept i { quiet s with env := es, cmds := ws, cmdValid := false }) :=
  (step_event he).trans (risingEdge_accepts (s := { quiet s with env := es }) hv hr hp hc hd)

/-- A command presented by the host and given one edge is accepted. -/
theorem runSteps_present_accept {s : State} {es : List EnvEvent} {w : Nat} {ws : List Nat} {i : Instr}
    (he : s.env = .cmdValid true :: .edge :: es) (hr : s.rst = false) (hp : s.phase = .idle) (hc : s.cmds = w :: ws)
    (hd : decode s.cfg w = .ok i) :
    runSteps 2 s = .next (accept i (quiet { s with env := es, cmds := ws, cmdValid := false })) := by
  have h₁ : runSteps 1 s = .next { quiet s with env := .edge :: es, cmdValid := true } :=
    (runSteps_succ (k := 0) rfl).trans (step_presents he hc)
  exact (runSteps_succ h₁).trans (step_accepts rfl rfl hr hp hc hd)

/-- A command just accepted, before a storage memory that serves at once and with edges enough, runs edge by edge to
the state it leaves at once. -/
theorem runsByEdges_accept (i : Instr) (s : State) (es : List EnvEvent) (hr : s.rst = false) (hm : s.mReady = true)
    (hv : s.mRvalid = true) (he : s.env = List.replicate ((planAt i s).txns.length + 1) .edge ++ es) :
    RunsByEdges (planAt i s).txns.length es s.regs { carryOut (planAt i s) s with env := es } (accept i s) where
  env := he
  rst := hr
  mReady := hm
  mRvalid := hv
  rsp := rfl
  regs := rfl
  busy := ⟨_, rfl, rfl, rfl, rfl, by rw [completed_accept]⟩

/-- Settles O9: each edge after the acceptance performs a transaction and keeps the completion, which the acceptance
fixed as the command carried out at once, and the last edge is that completion. -/
theorem edgeByEdgeIsTheAtomicCommand : Obligations.EdgeByEdgeIsTheAtomicCommand := by
  intro s w ws i es hrst hidle hm hv hcmds hd
  let a : State := { s with cmds := ws, cmdValid := false,
                            env := List.replicate ((planAt i s).txns.length + 1) .edge ++ es }
  have hplan : planAt i (quiet a) = planAt i s := planAt_congr i rfl rfl rfl
  have hrun := runsByEdges_accept i (quiet a) es hrst hm hv (by rw [hplan]; rfl)
  let s₀ : State := { s with env := .cmdValid true :: List.replicate ((planAt i s).txns.length + 2) .edge ++ es }
  have hall := hrun.runSteps_performs (runSteps_present_accept (s := s₀) rfl hrst hidle hcmds hd)
  rw [hplan] at hall
  constructor
  · intro k hk
    obtain ⟨t, ht, h⟩ := hall k hk
    exact ⟨t, ht, h.rsp, h.regs, h.cmdReady_eq_false⟩
  · obtain ⟨t, ht, h⟩ := hall _ le_rfl
    rw [Nat.sub_self] at h
    rw [← Nat.add_assoc, runSteps_succ ht, h.step_completes, exec_eq_carryOut]
    exact congrArg _ (hplan ▸ carryOut_quiet i a es)

/-! ### A command run by the controller's own step -/

/-- A command whose transactions the storage memory all serves at once runs at once. -/
theorem runWord_served {w : Nat} {i : Instr} {s : State} (hd : decode s.cfg w = .ok i)
    (h : ∀ x ∈ (planAt i s).txns, served s x = true) : runWord w s = exec i s := by
  have hw : mustWait i s = false := by simpa [mustWait] using h
  simp [runWord, hd, hw]

/-- Settles O6: the next word's transactions are the command's, and the storage memory serves each of them at once. -/
theorem stepRunsTheDecodedCommand : Obligations.StepRunsTheDecodedCommand := by
  intro s w ws i he hrst hidle hcmds hd hserve
  rw [step_controller he, controller_word hrst hidle hcmds]
  refine runWord_served hd fun x hx => ?_
  have hplan : planAt i { s with cmds := ws, cmdValid := false } = planAt i s := planAt_congr i rfl rfl rfl
  obtain ⟨hready, hvalid⟩ := hserve x (hplan ▸ hx)
  simpa [served, hready] using hvalid

end Sys2Proof.Machine

/-! PROOFS of the family 10_state.md: what a command writes and leaves, and the invariant of the machine (R35, R36) at
reset and along every step. -/

namespace Sys2Proof.Machine

/-! ### The registers a command leaves -/

/-- The registers after a successful INIT (R78). -/
def initRegs (c : Params) (r : Regs) (base cap esize : Nat) : Regs :=
  { r with base := addrBits c base, cap := capBits c cap, esize := esizeBits c esize, head := 0, tail := 0, count := 0,
           copyEn := false, printEn := false }

/-- The registers after a command, whatever bytes it reads of its slot: those before it, or what one of the five
commands that write registers makes of them. -/
theorem regs_planOf_cases (c : Params) (r : Regs) (seen : List Byte) (i : Instr) :
    (planOf c r seen i).regs = r ∨
    (∃ base cap esize, i = .init true base cap esize ∧ (planOf c r seen i).regs = initRegs c r base cap esize) ∨
    (∃ p, i = .setcopy p ∧ (planOf c r seen i).regs = { r with copyEn := p }) ∨
    (∃ p, i = .setprint p ∧ (planOf c r seen i).regs = { r with printEn := p }) ∨
    (∃ w, i = .enq true w ∧ full r = false ∧ (planOf c r seen i).regs = enqRegs c r) ∨
    (∃ p, i = .deq p ∧ empty r = false ∧ (planOf c r seen i).regs = deqRegs c r p seen) := by
  cases i with
  | init p base cap esize =>
    cases p
    · exact .inl rfl
    · exact .inr (.inl ⟨base, cap, esize, rfl, rfl⟩)
  | qfull => exact .inl rfl
  | qempty => exact .inl rfl
  | rsv => exact .inl rfl
  | setcopy p => exact .inr (.inr (.inl ⟨p, rfl, rfl⟩))
  | setprint p => exact .inr (.inr (.inr (.inl ⟨p, rfl, rfl⟩)))
  | enq p w =>
    cases p
    · exact .inl rfl
    · cases h : full r
      · exact .inr (.inr (.inr (.inr (.inl ⟨w, rfl, rfl, by rw [planOf, planEnq_stores h]⟩))))
      · exact .inl (by rw [planOf, planEnq_full h]; rfl)
  | deq p =>
    cases h : empty r
    · exact .inr (.inr (.inr (.inr (.inr ⟨p, rfl, rfl, by rw [planOf, planDeq_removes h]⟩))))
    · exact .inl (by rw [planOf, planDeq_empty h]; rfl)

/-- Settles O41: by the commands that write registers. -/
theorem registersAreWrittenOnlyByTheirCommands : Obligations.RegistersAreWrittenOnlyByTheirCommands := by
  intro i s t h
  rw [exec_next_iff] at h
  subst h
  rw [carryOut_regs, planAt]
  rcases regs_planOf_cases s.cfg s.regs (slotSeen i s) i with
    h | ⟨base, cap, esize, rfl, h⟩ | ⟨p, rfl, h⟩ | ⟨p, rfl, h⟩ | ⟨w, rfl, hf, h⟩ | ⟨p, rfl, he, h⟩ <;> rw [h]
  · simp
  · simp [initRegs]
  · simp
  · simp
  · have hs : storing (.enq true w) s.regs = true := by simp [storing, hf]
    simp [enqRegs, hs]
  · have hr : removing (.deq p) s.regs = true := by simp [removing, he]
    cases p
    · simp [deqRegs, hr]
    · simp +contextual [deqRegs, hr, getElem?_setLanes_of_le]

/-! ### R35 through one command -/

theorem Regs.inv_reset (c : Params) : (Regs.reset c).Inv c := by
  simp [Regs.Inv, Regs.Fit, Regs.Inv1, Regs.Inv2, Regs.Inv4, Regs.reset]

/-- An empty buffer keeps R35, whatever its capacity. -/
theorem Regs.inv_initRegs {c : Params} {r : Regs} (h : r.Inv c) (base cap esize : Nat) :
    (initRegs c r base cap esize).Inv c := by
  obtain ⟨⟨-, -, -, -, -, -, hrdata⟩, -⟩ := h
  refine ⟨⟨capBits_lt c cap, Nat.mod_lt _ (by positivity), addrBits_lt c base, ?_, ?_, ?_, hrdata⟩, ?_, ?_, ?_⟩
  all_goals simp [initRegs, Regs.Inv1, Regs.Inv2, Regs.Inv4]

/-- A storing ENQ keeps R35: COUNT was below CAP, and TAIL and HEAD + COUNT advance together. -/
theorem Regs.inv_enqRegs {c : Params} {r : Regs} (h : r.Inv c) (hf : full r = false) : (enqRegs c r).Inv c := by
  obtain ⟨⟨hcap, hesize, hbase, hhead, -, -, hrdata⟩, h1, ⟨h2, -⟩, h4⟩ := h
  have hlt : r.count < r.cap := lt_of_le_of_ne h1 (full_eq_false.1 hf)
  obtain ⟨hh, ht⟩ := h2 (by omega)
  have hcount : capBits c (r.count + 1) = r.count + 1 := capBits_of_lt c (by omega)
  have htail : inc c r r.tail = (r.head + (r.count + 1)) % r.cap := by
    rw [inc_eq c ht hcap, h4 (by omega), Nat.mod_add_mod, Nat.add_assoc]
  have htlt := inc_lt c ht hcap
  simp only [enqRegs, hcount]
  exact ⟨⟨hcap, hesize, hbase, hhead, htlt.trans hcap, show r.count + 1 < _ by omega, hrdata⟩,
    show r.count + 1 ≤ r.cap from hlt, ⟨fun _ => ⟨hh, htlt⟩, fun h0 => absurd h0 (show r.cap ≠ 0 by omega)⟩,
    fun _ => htail⟩

/-- A removing DEQ keeps R35: COUNT was above 0, and what HEAD gains COUNT loses. -/
theorem Regs.inv_deqRegs {c : Params} {r : Regs} (h : r.Inv c) (he : empty r = false) (p : Bool) (slot : List Byte) :
    (deqRegs c r p slot).Inv c := by
  obtain ⟨⟨hcap, hesize, hbase, -, htail, -, hrdata⟩, h1, ⟨h2, -⟩, h4⟩ := h
  have hpos : r.count ≠ 0 := empty_eq_false.1 he
  unfold Regs.Inv1 at h1
  obtain ⟨hh, ht⟩ := h2 (by omega)
  have hcount : capBits c (r.count - 1) = r.count - 1 := capBits_of_lt c (by omega)
  have hsum : r.tail = (inc c r r.head + (r.count - 1)) % r.cap := by
    rw [inc_eq c hh hcap, Nat.mod_add_mod, h4 (by omega), show r.head + 1 + (r.count - 1) = r.head + r.count by omega]
  have hlen : (if p then setLanes r.rdata r.esize (copiedOut c r slot) else r.rdata).length = c.emax := by
    split <;> simp [hrdata]
  have hhlt := inc_lt c hh hcap
  simp only [deqRegs, hcount]
  exact ⟨⟨hcap, hesize, hbase, hhlt.trans hcap, htail, show r.count - 1 < _ by omega, hlen⟩,
    show r.count - 1 ≤ r.cap by omega, ⟨fun _ => ⟨hhlt, ht⟩, fun h0 => absurd h0 (show r.cap ≠ 0 by omega)⟩,
    fun _ => hsum⟩

/-- Every command keeps R35, whatever bytes it reads of its slot. -/
theorem Regs.inv_planOf {c : Params} {r : Regs} (h : r.Inv c) (seen : List Byte) (i : Instr) :
    (planOf c r seen i).regs.Inv c := by
  rcases regs_planOf_cases c r seen i with
    hr | ⟨base, cap, esize, -, hr⟩ | ⟨p, -, hr⟩ | ⟨p, -, hr⟩ | ⟨w, -, hf, hr⟩ | ⟨p, -, he, hr⟩ <;> rw [hr]
  · exact h
  · exact Regs.inv_initRegs h base cap esize
  · exact h
  · exact h
  · exact Regs.inv_enqRegs h hf
  · exact Regs.inv_deqRegs h he p seen

/-- Settles O45: by the registers each command leaves. -/
theorem everyCommandPreservesTheRegisterInvariants : Obligations.EveryCommandPreservesTheRegisterInvariants := by
  intro i s t _ _ hinv h
  rw [exec_next_iff] at h
  subst h
  rw [carryOut_cfg]
  exact Regs.inv_planOf hinv _ i

/-! ### What a command leaves unchanged -/

/-- Settles O14: carrying out a plan changes none of these fields. -/
theorem noCommandChangesWhatComesNext : Obligations.NoCommandChangesWhatComesNext := by
  intro i s t h
  rw [exec_next_iff] at h
  subst h
  exact ⟨carryOut_cmds _ s, carryOut_cmdValid _ s, carryOut_env _ s, carryOut_cfg _ s, carryOut_rst _ s,
    carryOut_mReady _ s, carryOut_mRvalid _ s, carryOut_phase _ s⟩

/-! ### No step changes the configuration -/

@[simp] theorem finalEdge_phase (b : Busy) (s : State) : (finalEdge b s).phase = .idle := by
  rw [finalEdge_eq, commit_phase]

@[simp] theorem finalEdge_cfg (b : Busy) (s : State) : (finalEdge b s).cfg = s.cfg := by
  rw [finalEdge_eq]; split <;> simp

@[simp] theorem finalEdge_cmds (b : Busy) (s : State) : (finalEdge b s).cmds = s.cmds := by
  rw [finalEdge_eq]; split <;> simp

@[simp] theorem finalEdge_cmdValid (b : Busy) (s : State) : (finalEdge b s).cmdValid = s.cmdValid := by
  rw [finalEdge_eq]; split <;> simp

@[simp] theorem finalEdge_regs (b : Busy) (s : State) : (finalEdge b s).regs = (finalPlan b s).regs := by
  rw [finalEdge_eq, commit_regs]

/-- What an allowed change of cmd_valid does: it changes that level, and only a host with a command presents one. -/
theorem setCmdValid_next {level : Bool} {s t : State} (h : setCmdValid level s = .next t) :
    ∃ v, t = { s with cmdValid := v } ∧ (v = true → s.cmds ≠ []) := by
  unfold setCmdValid at h
  split at h
  · cases h
    exact ⟨_, rfl, by simp⟩
  · split at h
    · cases h
    · rename_i hv
      cases h
      exact ⟨s.cmdValid, rfl, fun ht => absurd ht hv⟩

/-- What an allowed change of the host's next command does. -/
theorem changeNext_next {w : Nat} {s t : State} (h : changeNext w s = .next t) :
    t = { s with cmds := w :: s.cmds.tail } := by
  unfold changeNext at h
  split at h
  · cases h
  · cases h
    rfl

/-- What a rising edge that is not refused does: it accepts the command presented, or is an edge of the controller. -/
theorem risingEdge_next {s t : State} (h : risingEdge s = .next t) :
    (∃ w ws i, s.cmds = w :: ws ∧ decode s.cfg w = .ok i ∧ t = accept i { s with cmds := ws, cmdValid := false }) ∨
    t = clockEdge s := by
  rcases risingEdge_cases s with ⟨w, ws, i, -, -, hc, hd, h'⟩ | ⟨w, ws, e, -, -, -, -, h'⟩ | ⟨-, h'⟩ <;>
    rw [h'] at h <;> cases h
  · exact .inl ⟨w, ws, i, hc, hd, rfl⟩
  · exact .inr rfl

/-- What running a command word that is not refused does: the command is accepted and waits, or runs. -/
theorem runWord_next {w : Nat} {s t : State} (h : runWord w s = .next t) :
    ∃ i, decode s.cfg w = .ok i ∧ (t = accept i s ∨ t = carryOut (planAt i s) s) := by
  rcases runWord_cases w s with ⟨i, hd, -, h'⟩ | ⟨i, hd, -, h'⟩ | ⟨e, -, h'⟩ <;> rw [h'] at h <;> cases h
  · exact ⟨i, hd, .inl rfl⟩
  · exact ⟨i, hd, .inr rfl⟩

/-- What the controller's own step does, if it is neither refused nor a hang: a reset edge, the end of the command in
progress, nothing, or the host's next command, accepted or run. -/
theorem controller_next {s t : State} (h : controller s = .next t) :
    t = resetEdge s ∨ (∃ b, s.phase = .busy b ∧ t = completed b s) ∨ t = quiet s ∨
    ∃ w ws i, s.phase = .idle ∧ s.cmds = w :: ws ∧ decode s.cfg w = .ok i ∧
      (t = accept i { s with cmds := ws, cmdValid := false } ∨
       t = carryOut (planAt i { s with cmds := ws, cmdValid := false }) { s with cmds := ws, cmdValid := false }) := by
  rcases controller_cases s with ⟨-, h'⟩ | ⟨b, -, hb, h'⟩ | ⟨-, -, -, h'⟩ | ⟨w, ws, -, hp, hc, h'⟩ <;> rw [h'] at h
  · cases h
    exact .inl rfl
  · rcases finishBusy_cases b s with ⟨-, h'⟩ | ⟨-, h'⟩ <;> rw [h'] at h <;> cases h
    exact .inr (.inl ⟨b, hb, rfl⟩)
  · cases h
    exact .inr (.inr (.inl rfl))
  · obtain ⟨i, hd, ht⟩ := runWord_next h
    exact .inr (.inr (.inr ⟨w, ws, i, hp, hc, hd, ht⟩))

theorem environment_cfg {e : EnvEvent} {s t : State} (h : environment e s = .next t) : t.cfg = s.cfg := by
  cases e with
  | rst level => cases level <;> cases h <;> simp
  | mReady level => cases h; rfl
  | mRvalid level => cases h; rfl
  | cmdValid level => obtain ⟨v, rfl, -⟩ := setCmdValid_next h; rfl
  | edge =>
    rcases risingEdge_next h with ⟨w, ws, i, -, -, rfl⟩ | rfl
    · rfl
    · exact clockEdge_cfg s
  | agentRead a => cases h; exact agentAccess_cfg s a
  | agentWrite a b => cases h; exact agentAccess_cfg s a
  | changeCommand w => rw [changeNext_next h]
  | secondHost w => cases h

theorem controller_cfg {s t : State} (h : controller s = .next t) : t.cfg = s.cfg := by
  rcases controller_next h with rfl | ⟨b, -, rfl⟩ | rfl | ⟨w, ws, i, -, -, -, rfl | rfl⟩ <;> simp [completed]

/-- Settles O15: neither an event nor the controller's own step changes it. -/
theorem noStepChangesTheConfiguration : Obligations.NoStepChangesTheConfiguration := by
  intro s t h
  cases he : s.env with
  | nil => exact controller_cfg (step_controller he ▸ h)
  | cons e es => exact environment_cfg (s := { quiet s with env := es }) (step_event he ▸ h)

/-! ### The command in progress, along its edges and through a race -/

/-- A command of the configuration, just accepted, is sound. -/
theorem Busy.inv_accept {i : Instr} {s : State} (h : i.wf s.cfg = true) :
    Busy.Inv (accept i s) ⟨i, slotSeen i s, 0, false, false⟩ :=
  ⟨h, length_slotSeen_congr i rfl, Nat.zero_le _, fun ha => by cases ha⟩

/-- With a transaction left, one more may be performed. -/
theorem Busy.inv_performTxn {b : Busy} {s : State} {t : Txn} {ts : List Txn} (h : b.Inv s)
    (hp : pending b s = t :: ts) (p : Phase) :
    Busy.Inv { performTxn s t with phase := p } { b with done := b.done + 1, awaiting := false } := by
  obtain ⟨hwf, hseen, -, -⟩ := h
  have hlt : b.done < (busyPlan b s).txns.length := by
    have hlen := congrArg List.length hp
    simp only [pending, List.length_drop, List.length_cons] at hlen
    omega
  have hplan : busyPlan { b with done := b.done + 1, awaiting := false } { performTxn s t with phase := p } =
      busyPlan b s := by simp [busyPlan]
  refine ⟨by simpa using hwf, hseen.trans (length_slotSeen_congr _ ?_), hplan ▸ hlt, fun ha => by cases ha⟩
  exact (performTxn_regs s t).symm

/-- A command whose next transaction is a read may await its bytes. -/
theorem Busy.inv_awaiting {b : Busy} {s : State} {t : Txn} {ts : List Txn} (h : b.Inv s)
    (hp : pending b s = t :: ts) (ht : t.we = false) (p : Phase) :
    Busy.Inv { s with phase := p } { b with awaiting := true } := by
  obtain ⟨hwf, hseen, hdone, -⟩ := h
  refine ⟨hwf, hseen.trans (length_slotSeen_congr _ rfl), hdone, fun _ => ?_⟩
  have hp' : pending { b with awaiting := true } { s with phase := p } = t :: ts := hp
  simp [hp', ht]

/-- Whether a command's first transaction is a read does not depend on the bytes it reads. -/
theorem head_planOf_reads (c : Params) (r : Regs) (i : Instr) (x y : List Byte) :
    (planOf c r x i).txns.head?.any (fun t => !t.we) = (planOf c r y i).txns.head?.any (fun t => !t.we) := by
  simpa [Option.any_map, Function.comp_def] using
    congrArg (Option.any fun t => !t.we) (request_head_planOf c r i x y)

/-- A race may change the bytes a command reads of its slot, until its first transaction is performed. -/
theorem Busy.inv_raced {b : Busy} {s t : State} (h : b.Inv s) (hcfg : t.cfg = s.cfg) (hregs : t.regs = s.regs)
    {seen : List Byte} (hlen : seen.length = b.seen.length) (hsame : b.done ≠ 0 → seen = b.seen) :
    Busy.Inv t { b with seen := seen, raced := true } := by
  refine Busy.Inv_congr hcfg.symm hregs.symm ?_
  obtain ⟨hwf, hseen, hdone, hread⟩ := h
  refine ⟨hwf, hlen.trans hseen, hdone.trans_eq (length_txns_planOf _ _ _ _ _), fun ha => ?_⟩
  by_cases h0 : b.done = 0
  · have hr := hread ha
    simp only [pending, busyPlan, h0, List.drop_zero] at hr ⊢
    rwa [head_planOf_reads]
  · obtain rfl := hsame h0
    exact hread ha

/-- What another agent's access does to the controller: nothing, or a race with the command in progress. -/
theorem agentAccess_cases (a : Nat) (s : State) :
    agentAccess a s = s ∨
    ∃ b t, s.phase = .busy b ∧ t ∈ (busyPlan b s).txns ∧
      (agentAccess a s).phase =
        .busy { b with seen := if b.done = 0 then freeBytes s.draws t.len else b.seen, raced := true } := by
  unfold agentAccess
  split
  · exact .inl rfl
  · rename_i b hb
    split
    · exact .inl rfl
    · rename_i t ht
      split
      · exact .inr ⟨b, t, hb, List.mem_of_mem_head? ht, rfl⟩
      · exact .inl rfl

theorem phaseInv_of_idle {s : State} (h : s.phase = .idle) : phaseInv s := by
  rw [phaseInv, h]
  trivial

theorem phaseInv_busy {s : State} {b : Busy} (h : phaseInv s) (hb : s.phase = .busy b) : b.Inv s := by
  rwa [phaseInv, hb] at h

theorem phaseInv_agentAccess {s : State} (a : Nat) (h : phaseInv s) : phaseInv (agentAccess a s) := by
  rcases agentAccess_cases a s with ha | ⟨b, t, hb, ht, ha⟩
  · rwa [ha]
  · have hinv := phaseInv_busy h hb
    have ⟨_, hseen, _, _⟩ := hinv
    have hlen : t.len = b.seen.length := (len_txns_planOf ht).trans hseen.symm
    rw [phaseInv, ha]
    refine Busy.inv_raced hinv (agentAccess_cfg s a) (agentAccess_regs s a) ?_ fun h0 => if_neg h0
    split <;> simp [freeBytes, hlen]

/-! ### The invariant of the machine, along every step -/

/-- Settles O44: after reset every register is 0 and no storage byte has been written. -/
theorem invariantHoldsAtReset : Obligations.InvariantHoldsAtReset := by
  have hreset (c : Params) (hc : c.Ok) : Sound (State.resetOf c) :=
    ⟨hc, Regs.inv_reset c, Memory.wf_nil c, phaseInv_of_idle rfl, fun hv => by cases hv⟩
  exact ⟨hreset, hreset _ (by decide)⟩

theorem wf_abandon {s : State} (h : Memory.wf s.cfg s.mem) : Memory.wf s.cfg (abandon s).mem := by
  unfold abandon
  split
  · exact h
  · split
    · exact wf_scrambleSlot _ h
    · exact h

theorem wf_finalEdge {s : State} (b : Busy) (h : Memory.wf s.cfg s.mem) : Memory.wf s.cfg (finalEdge b s).mem := by
  rw [finalEdge_eq, commit_mem]
  split
  · exact wf_scrambleSlot (s := { s with draws := s.draws + b.seen.length }) b h
  · exact h

namespace Sound

variable {s t : State}

/-- A change of the ports, of the inputs, of the draws or of the storage memory keeps the invariant, if the storage
memory stays canonical and a command stands to be presented while cmd_valid = 1. -/
theorem of_same_phase (h : Sound s) (hcfg : t.cfg = s.cfg) (hregs : t.regs = s.regs) (hphase : t.phase = s.phase)
    (hmem : Memory.wf s.cfg t.mem) (hcmd : t.cmdValid = true → t.cmds ≠ []) : Sound t := by
  obtain ⟨hok, hinv, -, hph, -⟩ := h
  exact ⟨hcfg ▸ hok, hcfg ▸ hregs ▸ hinv, hcfg ▸ hmem, phaseInv_congr hcfg.symm hregs.symm hphase.symm hph, hcmd⟩

/-- The end of a command keeps the invariant, if its registers keep R35 and the storage memory stays canonical. -/
theorem of_idle (h : Sound s) (hcfg : t.cfg = s.cfg) (hregs : t.regs.Inv s.cfg) (hphase : t.phase = .idle)
    (hmem : Memory.wf s.cfg t.mem) (hvalid : t.cmdValid = s.cmdValid) (hcmds : t.cmds = s.cmds) : Sound t := by
  obtain ⟨hok, -, -, -, hcmd⟩ := h
  exact ⟨hcfg ▸ hok, hcfg ▸ hregs, hcfg ▸ hmem, phaseInv_of_idle hphase, by rwa [hvalid, hcmds]⟩

/-- A command in progress moves on soundly, if it stays sound and the storage memory stays canonical. -/
theorem of_busy (h : Sound s) (hcfg : t.cfg = s.cfg) (hregs : t.regs = s.regs) (hphase : phaseInv t)
    (hmem : Memory.wf s.cfg t.mem) (hvalid : t.cmdValid = s.cmdValid) (hcmds : t.cmds = s.cmds) : Sound t := by
  obtain ⟨hok, hinv, -, -, hcmd⟩ := h
  exact ⟨hcfg ▸ hok, hcfg ▸ hregs ▸ hinv, hcfg ▸ hmem, hphase, by rwa [hvalid, hcmds]⟩

theorem regsInv (h : Sound s) : s.regs.Inv s.cfg := by
  obtain ⟨-, hinv, -, -, -⟩ := h
  exact hinv

theorem memWf (h : Sound s) : Memory.wf s.cfg s.mem := by
  obtain ⟨-, -, hmem, -, -⟩ := h
  exact hmem

theorem phaseSound (h : Sound s) : phaseInv s := by
  obtain ⟨-, -, -, hph, -⟩ := h
  exact hph

theorem hasCommand (h : Sound s) : s.cmdValid = true → s.cmds ≠ [] := by
  obtain ⟨-, -, -, -, hcmd⟩ := h
  exact hcmd

theorem busyInv (h : Sound s) {b : Busy} (hb : s.phase = .busy b) : b.Inv s := phaseInv_busy h.phaseSound hb

theorem quiet_env (h : Sound s) (es : List EnvEvent) : Sound { quiet s with env := es } :=
  h.of_same_phase rfl rfl rfl h.memWf h.hasCommand

/-- The host's next command is taken: cmd_valid falls. -/
theorem take (h : Sound s) (ws : List Nat) : Sound { s with cmds := ws, cmdValid := false } :=
  h.of_same_phase rfl rfl rfl h.memWf fun hv => by cases hv

theorem resetEdge (h : Sound s) : Sound (resetEdge s) :=
  h.of_idle (resetEdge_cfg s) (Regs.inv_reset s.cfg) rfl (wf_abandon h.memWf) (resetEdge_cmdValid s)
    (resetEdge_cmds s)

theorem accept (h : Sound s) {w : Nat} {i : Instr} (hd : decode s.cfg w = .ok i) : Sound (accept i s) :=
  h.of_busy rfl rfl (Busy.inv_accept (decode_wf hd)) h.memWf rfl rfl

theorem carryOut (h : Sound s) (i : Instr) : Sound (carryOut (planAt i s) s) :=
  h.of_idle (carryOut_cfg _ s) (Regs.inv_planOf h.regsInv _ i) rfl (wf_performAll _ h.memWf)
    (carryOut_cmdValid _ s) (carryOut_cmds _ s)

theorem performAll (h : Sound s) (ts : List Txn) : Sound (performAll s ts) :=
  h.of_same_phase (performAll_cfg s ts) (performAll_regs s ts) (performAll_phase s ts) (wf_performAll ts h.memWf)
    (by simpa using h.hasCommand)

theorem finalEdge (h : Sound s) (b : Busy) : Sound (finalEdge b s) := by
  obtain ⟨seen, -, hregs⟩ := finalPlan_regs b s
  refine h.of_idle (finalEdge_cfg b s) ?_ (finalEdge_phase b s) (wf_finalEdge b h.memWf) (finalEdge_cmdValid b s)
    (finalEdge_cmds b s)
  rw [finalEdge_regs, hregs]
  exact Regs.inv_planOf h.regsInv seen b.instr

theorem completed (h : Sound s) (b : Busy) : Sound (completed b s) := (h.performAll _).finalEdge b

theorem busyEdge (h : Sound s) {b : Busy} (hb : s.phase = .busy b) : Sound (busyEdge b s) := by
  rcases busyEdge_cases b s with ⟨x, xs, hp, -, he⟩ | ⟨x, xs, hp, hx, -, -, -, he⟩ | ⟨x, xs, -, -, -, he⟩ | ⟨-, he⟩ <;>
    rw [he]
  · exact h.of_busy (performTxn_cfg s x) (performTxn_regs s x) (Busy.inv_performTxn (h.busyInv hb) hp _)
      (wf_performTxn x h.memWf) (performTxn_cmdValid s x) (performTxn_cmds s x)
  · exact h.of_busy rfl rfl (Busy.inv_awaiting (h.busyInv hb) hp hx _) h.memWf rfl rfl
  · exact h
  · exact h.finalEdge b

theorem clockEdge (h : Sound s) : Sound (clockEdge s) := by
  rcases clockEdge_cases s with ⟨-, he⟩ | ⟨-, -, he⟩ | ⟨b, -, hb, he⟩ <;> rw [he]
  · exact h.resetEdge
  · exact h
  · exact h.busyEdge hb

theorem agentAccess (h : Sound s) (a : Nat) : Sound (agentAccess a s) :=
  h.of_busy (agentAccess_cfg s a) (agentAccess_regs s a) (phaseInv_agentAccess a h.phaseSound)
    ((agentAccess_mem s a).symm ▸ h.memWf) (agentAccess_cmdValid s a) (agentAccess_cmds s a)

/-- Every event of the platform and of the other agents keeps the invariant. -/
theorem environment {e : EnvEvent} (h : Sound s) (ht : environment e s = .next t) : Sound t := by
  cases e with
  | rst level =>
    cases level <;> cases ht
    · exact h.of_same_phase rfl rfl rfl h.memWf h.hasCommand
    · have hr := h.resetEdge
      exact hr.of_same_phase rfl rfl rfl hr.memWf hr.hasCommand
  | mReady level => cases ht; exact h.of_same_phase rfl rfl rfl h.memWf h.hasCommand
  | mRvalid level => cases ht; exact h.of_same_phase rfl rfl rfl h.memWf h.hasCommand
  | cmdValid level =>
    obtain ⟨v, rfl, hv⟩ := setCmdValid_next ht
    exact h.of_same_phase rfl rfl rfl h.memWf hv
  | edge =>
    rcases risingEdge_next ht with ⟨w, ws, i, -, hd, rfl⟩ | rfl
    · exact (h.take ws).accept hd
    · exact h.clockEdge
  | agentRead a => cases ht; exact h.agentAccess a
  | agentWrite a b =>
    cases ht
    have ha := h.agentAccess a
    exact ha.of_same_phase rfl rfl rfl
      ((agentAccess_cfg s a).symm ▸ Memory.wf_write s.cfg b (addrBits_lt s.cfg a) h.memWf) ha.hasCommand
  | changeCommand w =>
    obtain rfl := changeNext_next ht
    exact h.of_same_phase rfl rfl rfl h.memWf fun _ => List.cons_ne_nil _ _
  | secondHost w => cases ht

/-- The controller's own step keeps the invariant. -/
theorem controller (h : Sound s) (ht : controller s = .next t) : Sound t := by
  rcases controller_next ht with rfl | ⟨b, -, rfl⟩ | rfl | ⟨w, ws, i, -, -, hd, rfl | rfl⟩
  · exact h.resetEdge
  · exact h.completed b
  · exact h.quiet_env s.env
  · exact (h.take ws).accept hd
  · exact (h.take ws).carryOut i

end Sound

/-- Settles O46: an event keeps the invariant, and so does the controller's own step. -/
theorem everyStepKeepsTheInvariant : Obligations.EveryStepKeepsTheInvariant := by
  intro s t hs h
  cases he : s.env with
  | nil => exact hs.controller (step_controller he ▸ h)
  | cons e es => exact (hs.quiet_env es).environment (step_event he ▸ h)

end Sys2Proof.Machine

/-! PROOFS of the family 20_memory.md: the storage transactions of every command (R43, R45), the handshake on the storage
port (R43), and other agents on the storage memory (R51). -/

namespace Sys2Proof.Machine

/-! ### The storage transactions of a command -/

/-- A command that neither stores nor removes has no storage transaction (R45). -/
theorem txns_planAt_eq_nil {i : Instr} {s : State} (hs : storing i s.regs = false) (hr : removing i s.regs = false) :
    (planAt i s).txns = [] := by
  rcases planAt_cases i s with ⟨code, flag, h, -, -⟩ | ⟨base, cap, esize, rfl⟩ | ⟨p, rfl⟩ | ⟨p, rfl⟩ | ⟨w, rfl, hf⟩ |
    ⟨p, rfl, he⟩
  · rw [h]
    rfl
  · rfl
  · rfl
  · rfl
  · simp [storing, hf] at hs
  · simp [removing, he] at hr

/-- Settles O43: with no transaction to perform, the storage memory and the draws stay. -/
theorem onlyTransfersTouchStorage : Obligations.OnlyTransfersTouchStorage := by
  intro i s t h hs hr
  rw [exec_next_iff] at h
  subst h
  simp [txns_planAt_eq_nil hs hr]

/-- A command's transactions are a read of one slot and a write of that slot, or fewer of the two (R45). -/
theorem txns_planAt_sublist (i : Instr) (s : State) :
    ∃ k old new, old.length = s.regs.esize ∧ new.length = s.regs.esize ∧
      (planAt i s).txns.Sublist
        (readTxns (slotAddr s.cfg s.regs k) s.regs.esize old ++
          writeTxns (slotAddr s.cfg s.regs k) s.regs.esize new) := by
  cases hs : storing i s.regs
  · cases hr : removing i s.regs
    · rw [txns_planAt_eq_nil hs hr]
      exact ⟨0, zeros s.regs.esize, zeros s.regs.esize, by simp, by simp, List.nil_sublist _⟩
    · cases i with
      | deq p =>
        have he : empty s.regs = false := by simpa [removing] using hr
        refine ⟨s.regs.head, deqSlot s, zeros s.regs.esize, by simp, by simp, ?_⟩
        simp only [planAt, planOf, slotSeen, planDeq_removes he]
        refine List.Sublist.append ?_ ?_ <;> split <;> simp
      | _ => cases hr
  · cases i with
    | enq p w =>
      obtain ⟨rfl, hf⟩ : p = true ∧ full s.regs = false := by simpa [storing] using hs
      refine ⟨s.regs.tail, enqSlot s, storedBytes s.cfg s.regs w (enqSlot s), by simp, by simp, ?_⟩
      simp only [planAt, planOf, slotSeen, planEnq_stores hf]
      refine List.Sublist.append ?_ (List.Sublist.refl _)
      split <;> simp
    | _ => cases hs

/-- Of elements of no bytes, no command has a storage transaction (R45). -/
theorem txns_planAt_of_esize_zero (i : Instr) {s : State} (h : s.regs.esize = 0) : (planAt i s).txns = [] := by
  obtain ⟨k, old, new, -, -, hsub⟩ := txns_planAt_sublist i s
  simpa [h] using hsub

/-- Settles O32: by the paths of ENQ and DEQ; no other command, and none at ESIZE = 0, has a transaction. -/
theorem transactionsAreThoseOfTheTable : Obligations.TransactionsAreThoseOfTheTable := by
  intro i s t h
  rw [exec_next_iff] at h
  subst h
  refine ⟨rfl, ?_⟩
  rw [carryOut_bus]
  by_cases hz : s.regs.esize = 0
  · exact (txns_planAt_of_esize_zero i hz).trans (if_pos hz).symm
  refine Eq.trans ?_ (if_neg hz).symm
  cases i with
  | enq p w =>
    cases p
    · exact txns_planAt_eq_nil rfl rfl
    · cases hf : full s.regs
      · have hne : s.regs.count ≠ s.regs.cap := full_eq_false.1 hf
        simp only [planAt, planOf, planEnq_stores hf]
        cases hc : s.regs.copyEn <;>
          simp [readTxns, writeTxns, storedBytes, slotSeen, enqSlot, slotAddr, addrBits, hz, hc, hne]
      · have heq : s.regs.count = s.regs.cap := full_eq_true.1 hf
        simpa [heq] using txns_planAt_eq_nil (i := .enq true w) (s := s) (by simp [storing, hf]) rfl
  | deq p =>
    cases he : empty s.regs
    · have hne : s.regs.count ≠ 0 := empty_eq_false.1 he
      simp [planAt, planOf, planDeq_removes he, readTxns, writeTxns, zeros, slotSeen, deqSlot, slotAddr, addrBits, hz,
        hne]
    · have heq : s.regs.count = 0 := empty_eq_true.1 he
      simpa [heq] using txns_planAt_eq_nil (i := .deq p) (s := s) rfl (by simp [removing, he])
  | init p base cap esize => exact txns_planAt_eq_nil rfl rfl
  | qfull => exact txns_planAt_eq_nil rfl rfl
  | qempty => exact txns_planAt_eq_nil rfl rfl
  | setcopy p => exact txns_planAt_eq_nil rfl rfl
  | setprint p => exact txns_planAt_eq_nil rfl rfl
  | rsv => exact txns_planAt_eq_nil rfl rfl

/-- A MemRead of one slot and a MemWrite of it are at most two transactions (R43). -/
theorem length_readTxns_writeTxns_le (a n : Nat) (x y : List Byte) :
    (readTxns a n x ++ writeTxns a n y).length ≤ 2 := by
  unfold readTxns writeTxns
  split <;> simp

/-- The transaction of a MemRead or a MemWrite carries its address, its length and its bytes, and none is empty (R14). -/
theorem mem_readTxns_writeTxns {a n : Nat} {x y : List Byte} {t : Txn} (h : t ∈ readTxns a n x ++ writeTxns a n y) :
    n ≠ 0 ∧ t.addr = a ∧ t.len = n ∧ (t.data = x ∨ t.data = y) := by
  unfold readTxns writeTxns at h
  split at h
  · simp at h
  · rename_i hn
    obtain rfl | rfl : t = ⟨false, a, n, x⟩ ∨ t = ⟨true, a, n, y⟩ := by simpa using h
    · exact ⟨hn, rfl, rfl, .inl rfl⟩
    · exact ⟨hn, rfl, rfl, .inr rfl⟩

/-- Settles O33: the transactions are among a read and a write of one slot of ESIZE bytes, and ESIZE fits its width. -/
theorem transactionsFitTheStoragePort : Obligations.TransactionsFitTheStoragePort := by
  intro i s t hinv h
  obtain ⟨⟨-, hesize, -⟩, -⟩ := hinv
  rw [exec_next_iff] at h
  subst h
  rw [carryOut_bus]
  obtain ⟨k, old, new, hold, hnew, hsub⟩ := txns_planAt_sublist i s
  refine ⟨hsub.length_le.trans (length_readTxns_writeTxns_le _ _ _ _), fun x hx => ?_⟩
  obtain ⟨hn, haddr, hlen, hdata⟩ := mem_readTxns_writeTxns (hsub.subset hx)
  have hdlen : x.data.length = s.regs.esize := by rcases hdata with h | h <;> rw [h] <;> assumption
  rw [hlen, haddr]
  exact ⟨by omega, by omega, slotAddr_lt _ _ _, hdlen⟩

/-! ### The handshake on the storage port -/

/-- m_valid is 1 with a request exactly while a command in progress has a transaction left that has not transferred, out
of reset (R43). -/
theorem portRequest_eq_some_iff {s : State} {r : Txn} :
    portRequest s = some r ↔
      ∃ b, s.phase = .busy b ∧ s.rst = false ∧ b.awaiting = false ∧ (pending b s).head?.map Txn.request = some r := by
  unfold portRequest
  cases s.phase with
  | idle => simp
  | busy b => cases s.rst <;> cases hb : b.awaiting <;> simp [hb]

/-- While a read that transferred waits for its bytes, no request stands on the port (R43). -/
theorem mValid_awaiting {s : State} {b : Busy} (hb : s.phase = .busy b) (ha : b.awaiting = true) : mValid s = false := by
  simp [mValid, portRequest, hb, ha]

/-- A request is performed at the edge at which it transfers, unless it is a read whose bytes do not come yet. -/
theorem performs_requested {b : Busy} (ha : b.awaiting = false) (s : State) (x : Txn) :
    performs b s x = (s.mReady && (x.we || s.mRvalid)) := by simp [performs, served, ha]

/-- A read that has transferred is performed when its bytes come. -/
theorem performs_awaiting {b : Busy} (ha : b.awaiting = true) (s : State) (x : Txn) :
    performs b s x = s.mRvalid := by simp [performs, ha]

/-- The read on the port transfers, and its bytes are awaited. -/
theorem busyEdge_transfers {s : State} {b : Busy} {x : Txn} {xs : List Txn} (hp : pending b s = x :: xs)
    (h : performs b s x = false) (hm : s.mReady = true) (ha : b.awaiting = false) :
    busyEdge b s = { s with phase := .busy { b with awaiting := true } } := by simp [busyEdge, hp, h, hm, ha]

/-- While the storage memory neither accepts a request nor owes bytes that come, an edge changes nothing. -/
theorem busyEdge_waits {s : State} {b : Busy} {x : Txn} {xs : List Txn} (hp : pending b s = x :: xs)
    (h : performs b s x = false) (hm : s.mReady = false ∨ b.awaiting = true) : busyEdge b s = s := by
  rcases hm with hm | hm <;> simp [busyEdge, hp, h, hm]

/-- With a transaction left, an edge changes no register and shows no response (R137). -/
theorem busyEdge_keeps_regs_rsp {s : State} {b : Busy} {x : Txn} {xs : List Txn} (hp : pending b s = x :: xs) :
    (busyEdge b s).regs = s.regs ∧ (busyEdge b s).rsp = s.rsp := by
  rcases busyEdge_cases b s with ⟨y, -, -, -, h⟩ | ⟨-, -, -, -, -, -, -, h⟩ | ⟨-, -, -, -, -, h⟩ | ⟨hnil, -⟩
  · rw [h]
    exact ⟨performTxn_regs s y, performTxn_rsp s y⟩
  · rw [h]
    exact ⟨rfl, rfl⟩
  · rw [h]
    exact ⟨rfl, rfl⟩
  · rw [hp] at hnil
    cases hnil

/-- A performed write stores its bytes (R14). -/
theorem mem_performTxn_of_write {x : Txn} (h : x.we = true) (s : State) :
    (performTxn s x).mem = memWrite s.cfg s.draws s.mem x.addr x.data := by simp [performTxn, h]

/-- A performed read changes nothing (R48). -/
theorem performTxn_of_read {x : Txn} (h : x.we = false) (s : State) : performTxn s x = s := by simp [performTxn, h]

/-- Settles O11: at each level of m_ready and m_rvalid the next transaction is performed, or transfers, or waits. -/
theorem transactionsFollowTheStorageHandshake : Obligations.TransactionsFollowTheStorageHandshake := by
  intro s b x xs es he hrst hb hp nextPhase
  let q : State := { quiet s with env := es }
  have hq : pending b q = x :: xs := hp
  have hread (hx : x.we = false) (hdone : performs b q x = true) :
      (busyEdge b q).phase = nextPhase ∧ (busyEdge b q).mem = s.mem := by
    rw [busyEdge_performs hq hdone, performTxn_of_read hx]
    exact ⟨rfl, rfl⟩
  obtain ⟨hregs, hrsp⟩ := busyEdge_keeps_regs_rsp hq
  refine ⟨fun ha => ?_, mValid_awaiting hb, _, step_edge_busy he hrst hb, hregs, hrsp, fun ha hm hx => ?_,
    fun ha hm hx hv => ?_, fun ha hm hx hv => ?_, fun ha hx hv => ?_, fun ha hv => ?_, fun ha hm => ?_⟩
  · have hreq : portRequest s = some x.request := portRequest_eq_some_iff.2 ⟨b, hb, hrst, ha, by rw [hp]; rfl⟩
    exact ⟨by rw [mValid, hreq]; rfl, hreq⟩
  · have hdone : performs b q x = true := by simp [performs_requested ha, hx, q, hm]
    rw [busyEdge_performs hq hdone]
    exact ⟨rfl, mem_performTxn_of_write hx q⟩
  · have hnot : performs b q x = false := by simp [performs_requested ha, hx, q, hv]
    rw [busyEdge_transfers hq hnot hm ha]
    exact ⟨rfl, rfl, mValid_awaiting rfl rfl⟩
  · exact hread hx (by simp [performs_requested ha, q, hm, hv])
  · exact hread hx ((performs_awaiting ha q x).trans hv)
  · rw [busyEdge_waits hq ((performs_awaiting ha q x).trans hv) (.inr ha)]
    exact ⟨rfl, rfl, mValid_awaiting hb ha⟩
  · have hnot : performs b q x = false := by simp [performs_requested ha, q, hm]
    rw [busyEdge_waits hq hnot (.inl hm)]
    exact ⟨rfl, rfl, portRequest_congr rfl rfl rfl rfl⟩

/-- A race changes the bytes a command reads of its slot, not the request on the port (R43, R51). -/
theorem portRequest_agentAccess {s : State} {r : Txn} (a : Nat) (h : portRequest s = some r) :
    portRequest (agentAccess a s) = some r := by
  rcases agentAccess_cases a s with ha | ⟨b, x, hb, -, ha⟩
  · rwa [ha]
  · obtain ⟨b', hb', hrst, hawait, hreq⟩ := portRequest_eq_some_iff.1 h
    obtain rfl : b' = b := by simpa [hb] using hb'.symm
    refine portRequest_eq_some_iff.2 ⟨_, ha, (agentAccess_rst s a).trans hrst, hawait, ?_⟩
    rw [pending_congr _ (agentAccess_cfg s a) (agentAccess_regs s a)]
    by_cases h0 : b'.done = 0
    · simp only [pending, busyPlan, h0, List.drop_zero] at hreq ⊢
      rwa [request_head_planOf _ _ _ _ b'.seen]
    · rw [if_neg h0]
      exact hreq

/-- An edge with m_ready = 0 holds the request on the port (R43). -/
theorem busyEdge_of_request {s : State} {b : Busy} {r : Txn} (h : portRequest s = some r) (hb : s.phase = .busy b)
    (hm : s.mReady = false) : busyEdge b s = s := by
  obtain ⟨b', hb', -, ha, hreq⟩ := portRequest_eq_some_iff.1 h
  obtain rfl : b' = b := by simpa [hb] using hb'.symm
  cases hp : pending b' s with
  | nil => simp [hp] at hreq
  | cons x xs => exact busyEdge_waits hp (by simp [performs_requested ha, hm]) (.inl hm)

/-- Settles O12: an event moves a level, waits, or races, and none of these is in the request. -/
theorem requestIsHeldUntilItTransfers : Obligations.RequestIsHeldUntilItTransfers := by
  intro s t r e es he h hrst hedge ht
  rw [step_event he] at ht
  have hq : portRequest { quiet s with env := es } = some r := (portRequest_congr rfl rfl rfl rfl).trans h
  obtain ⟨b, hb, hr, -, -⟩ := portRequest_eq_some_iff.1 h
  cases e with
  | rst level =>
    cases level
    · cases ht
      rw [← h]
      exact portRequest_congr rfl rfl rfl hr.symm
    · exact absurd rfl hrst
  | mReady level => cases ht; exact (portRequest_congr rfl rfl rfl rfl).trans h
  | mRvalid level => cases ht; exact (portRequest_congr rfl rfl rfl rfl).trans h
  | cmdValid level =>
    obtain ⟨v, rfl, -⟩ := setCmdValid_next ht
    exact (portRequest_congr rfl rfl rfl rfl).trans h
  | edge =>
    rw [← step_event he, step_edge_busy he hr hb, busyEdge_of_request hq hb (hedge rfl)] at ht
    cases ht
    exact hq
  | agentRead a => cases ht; exact portRequest_agentAccess a hq
  | agentWrite a v => cases ht; exact (portRequest_congr rfl rfl rfl rfl).trans (portRequest_agentAccess a hq)
  | changeCommand w =>
    obtain rfl := changeNext_next ht
    exact (portRequest_congr rfl rfl rfl rfl).trans h
  | secondHost w => cases ht

/-! ### Other agents on the storage memory -/

/-- Settles O56: an idle controller sees nothing of an agent's access, and a write changes the byte it names. -/
theorem agentsBetweenCommandsTouchOnlyTheirByte : Obligations.AgentsBetweenCommandsTouchOnlyTheirByte := by
  intro s a b es hidle
  have hsame : agentAccess a { quiet s with env := es } = { quiet s with env := es } := agentAccess_idle _ a hidle
  constructor
  · intro he
    rw [step_event he, environment, hsame]
    exact ⟨_, rfl, rfl, Memory.read_write_self _ _ _ _, fun x hx => Memory.read_write_ne _ hx _ _⟩
  · intro he
    rw [step_event he, environment, hsame]

/-- After a race, the command ends as its plan says given some bytes for its slot (U3). -/
theorem finalPlan_of_race {b : Busy} (h : b.raced = true) (s : State) :
    finalPlan b s =
      { planOf s.cfg s.regs (freeBytes s.draws b.seen.length) b.instr with txns := (busyPlan b s).txns } := if_pos h

/-- The end of a command leaves every byte outside its slot, whether or not another agent raced with it. -/
theorem byteAt_finalEdge (b : Busy) (s : State) {y : Nat}
    (h : ∀ x ∈ (busyPlan b s).txns, ¬ InSlot s.cfg x.addr x.len y) : (finalEdge b s).byteAt y = s.byteAt y := by
  rw [finalEdge_eq]
  split
  · exact byteAt_scrambleSlot b { s with draws := s.draws + b.seen.length } h
  · rfl

/-- Settles O57: the final edge carries out the plan given free bytes for the slot, and scrambles that slot only. -/
theorem aRaceIsConfinedToTheSlot : Obligations.ARaceIsConfinedToTheSlot := by
  intro s b es he hrst hb hr hp
  let q : State := { quiet s with env := es }
  have hq : pending b q = [] := hp
  refine ⟨finalEdge b q, freeBytes s.draws b.seen.length, ?_, by simp [freeBytes], ?_, ?_, finalEdge_phase b q,
    fun y hy => byteAt_finalEdge b q hy⟩
  · rw [step_edge_busy he hrst hb, busyEdge_final hq]
  · rw [finalEdge_regs, finalPlan_of_race hr]
    rfl
  · rw [finalEdge_eq, commit_rsp, finalPlan_of_race hr]
    rfl

end Sys2Proof.Machine

/-! PROOFS of the family 30_encoding.md: the packed word holds the command's record (R58), so decoding reads back what
encoding wrote (R59, R64); the assembly lines (R68, R69); the command port (R60) and the responses of R61 and R65. -/

namespace Sys2Proof

/-! ### Reading fields of a word -/

/-- What is laid above a field does not change what is read from it. -/
theorem bitField_add_above {lo width e : Nat} (h : lo + width ≤ e) (w v : Nat) :
    bitField (w + 2 ^ e * v) lo width = bitField w lo width := by
  obtain ⟨k, rfl⟩ := Nat.exists_eq_add_of_le h
  rw [bitField, pow_add, pow_add, mul_assoc, mul_assoc, Nat.add_mul_div_left _ _ (by positivity),
    Nat.add_mul_mod_self_left, bitField]

/-- The uppermost field laid in a word reads back. -/
theorem bitField_uppermost {x lo width v : Nat} (hx : x < 2 ^ lo) (hv : v < 2 ^ width) :
    bitField (x + 2 ^ lo * v) lo width = v := by
  simpa using bitField_of_layout (hi := 0) hx hv

/-! ### The packed word of a record -/

/-- A record fits the command port exactly when each of its fields fits its own lines (R56). -/
theorem Cmd.wf_iff {c : Params} {m : Cmd} :
    m.wf c = true ↔ m.op < 8 ∧ m.base < 2 ^ c.addrW ∧ m.cap < 2 ^ c.capW ∧ m.esize < 2 ^ c.eszW ∧
      m.wdata.length = c.emax := by
  simp [Cmd.wf, fitsAddr, fitsCap, fitsEsize, fitsBus, and_assoc]

namespace Cmd

variable {c : Params} {m : Cmd}

theorem header_lt (h : m.op < 8) : m.header < 2 ^ 4 := by
  have hp : m.p.toNat < 2 := m.p.toNat_lt
  unfold header
  omega

theorem bitField_header_p (m : Cmd) : bitField m.header 0 1 = m.p.toNat := by
  have hp : m.p.toNat < 2 := m.p.toNat_lt
  simp only [bitField, header]
  omega

section
variable (h : m.wf c = true)
include h

/-! Laid from its lowest field up, the word stays below the first bit of the next field. -/

theorem below_capAt : m.header + 2 ^ 4 * m.base < 2 ^ capAt c := by
  obtain ⟨hop, hbase, -⟩ := wf_iff.1 h
  exact layout_lt (header_lt hop) hbase

theorem below_esizeAt : m.header + 2 ^ 4 * m.base + 2 ^ capAt c * m.cap < 2 ^ esizeAt c := by
  obtain ⟨-, -, hcap, -⟩ := wf_iff.1 h
  exact layout_lt (below_capAt h) hcap

theorem below_wdataAt :
    m.header + 2 ^ 4 * m.base + 2 ^ capAt c * m.cap + 2 ^ esizeAt c * m.esize < 2 ^ wdataAt c := by
  obtain ⟨-, -, -, hesize, -⟩ := wf_iff.1 h
  exact layout_lt (below_esizeAt h) hesize

/-- The packed word has CW bits (R58). -/
theorem pack_lt : pack c m < 2 ^ wordBits c := by
  obtain ⟨-, -, -, -, hlen⟩ := wf_iff.1 h
  exact layout_lt (below_wdataAt h) (hlen ▸ natOfLanes_lt m.wdata)

end

/-! The fields above one of the record's fields are read past, and it is the uppermost of what remains (R58). -/

theorem bitField_pack_p : bitField (pack c m) 0 1 = m.p.toNat := by
  simp (disch := omega) only [pack, capAt, esizeAt, wdataAt, bitField_add_above]
  exact bitField_header_p m

theorem bitField_pack_op (hop : m.op < 8) : bitField (pack c m) 1 3 = m.op := by
  simp (disch := omega) only [pack, capAt, esizeAt, wdataAt, bitField_add_above]
  exact bitField_uppermost (lo := 1) (width := 3) m.p.toNat_lt hop

section
variable (h : m.wf c = true)
include h

theorem bitField_pack_base : bitField (pack c m) 4 c.addrW = m.base := by
  obtain ⟨hop, hbase, -⟩ := wf_iff.1 h
  simp (disch := omega) only [pack, capAt, esizeAt, wdataAt, bitField_add_above]
  exact bitField_uppermost (header_lt hop) hbase

theorem bitField_pack_cap : bitField (pack c m) (capAt c) c.capW = m.cap := by
  obtain ⟨-, -, hcap, -⟩ := wf_iff.1 h
  simp (disch := omega) only [pack, capAt, esizeAt, wdataAt, bitField_add_above]
  exact bitField_uppermost (below_capAt h) hcap

theorem bitField_pack_esize : bitField (pack c m) (esizeAt c) c.eszW = m.esize := by
  obtain ⟨-, -, -, hesize, -⟩ := wf_iff.1 h
  simp (disch := omega) only [pack, capAt, esizeAt, wdataAt, bitField_add_above]
  exact bitField_uppermost (below_esizeAt h) hesize

theorem lanes_pack_wdata : lanesOfNat c.emax (pack c m / 2 ^ wdataAt c) = m.wdata := by
  obtain ⟨-, -, -, -, hlen⟩ := wf_iff.1 h
  have hdiv : pack c m / 2 ^ wdataAt c = natOfLanes m.wdata := by
    rw [pack, Nat.add_mul_div_left _ _ (by positivity), Nat.div_eq_of_lt (below_wdataAt h), Nat.zero_add]
  rw [hdiv, ← hlen]
  exact lanesOfNat_natOfLanes m.wdata 0

/-- Cutting the packed word up gives the record back. -/
theorem unpack_pack : unpack c (pack c m) = m := by
  have hop : m.op < 8 := (wf_iff.1 h).1
  have hp : (m.p.toNat == 1) = m.p := by cases m.p <;> rfl
  simp only [unpack, bitField_pack_p, bitField_pack_op hop, bitField_pack_base h, bitField_pack_cap h,
    bitField_pack_esize h, lanes_pack_wdata h, hp]

/-- The packed word decodes to the command its record stands for. -/
theorem decode_pack : decode c (pack c m) = .ok m.instr := by
  rw [decode_of_lt (pack_lt h), unpack_pack h]

end

end Cmd

/-! ### Decoding an encoded command -/

/-- The record an assembler writes for a command fits the command port. -/
theorem Instr.wf_cmd {c : Params} {i : Instr} (h : i.wf c = true) : (i.cmd c).wf c = true := by
  cases i with
  | init p base cap esize =>
    simp only [Instr.wf, fitsAddr, fitsCap, fitsEsize, Bool.and_eq_true, decide_eq_true_eq] at h
    obtain ⟨⟨hbase, hcap⟩, hesize⟩ := h
    simp [Cmd.wf_iff, Instr.cmd, hbase, hcap, hesize]
  | enq p wdata =>
    have hlen : wdata.length = c.emax := by simpa [Instr.wf, fitsBus] using h
    simp [Cmd.wf_iff, Instr.cmd, hlen]
  | _ => simp [Cmd.wf_iff, Instr.cmd]

/-- The record an assembler writes for a command stands for that command. -/
theorem Instr.instr_cmd (c : Params) (i : Instr) : (i.cmd c).instr = i := by cases i <;> rfl

/-- Settles O2: encoding packs the command's record, which fits the port, and decoding gives that record's command. -/
theorem decodeOfEncodeIsTheCommand : Obligations.DecodeOfEncodeIsTheCommand := by
  intro c i h
  rw [encode, Cmd.decode_pack (Instr.wf_cmd h), Instr.instr_cmd]

/-- Settles O3: the packed word decodes to the record's command, which is made of OP, P and the fields its row reads. -/
theorem ignoredFieldsDoNotChangeTheCommand : Obligations.IgnoredFieldsDoNotChangeTheCommand := by
  intro c m h
  rw [Cmd.decode_pack h]
  refine ⟨?_, ?_, ?_, ?_, ?_, ?_, ?_, ?_⟩ <;> intro hop <;> simp [Cmd.instr, hop]

/-! ### Decoding any word -/

/-- Lane k of WDATA is cut from its own bits of the whole word (R13, R58). -/
theorem unpack_wdata (c : Params) (w : Nat) :
    (unpack c w).wdata = (List.range c.emax).map fun k => BitVec.ofNat 8 (w / 2 ^ (wdataAt c + 8 * k)) := by
  simp only [unpack, lanesOfNat_eq_map, Nat.div_div_eq_div_mul, pow_add]

theorem unpack_p (c : Params) (w : Nat) : (unpack c w).p = (w % 2 == 1) := by
  simp [unpack, bitField]

/-- Settles O1: a word of CW bits decodes to the command of the record cut from it, and the row is that of W[3:1]. -/
theorem decodeReadsTheFieldsOfTheWord : Obligations.DecodeReadsTheFieldsOfTheWord := by
  intro c w h
  have hdecode : decode c w = .ok (unpack c w).instr := decode_of_lt h
  rw [Cmd.instr, unpack_p, unpack_wdata] at hdecode
  exact hdecode

/-! ### The assembly lines -/

/-- A byte list that fits the bus stands on its lowest lanes, and the lanes above it are 0 (R68). -/
theorem busOf_of_length_le {n : Nat} {d : List Byte} (h : d.length ≤ n) : busOf n d = d ++ zeros (n - d.length) := by
  apply List.ext_getElem
  · simp [busOf, h]
  · intro k hk _
    by_cases hd : k < d.length
    · simp [busOf, List.getElem_append_left hd, hd]
    · simp [busOf, List.getElem_append_right (Nat.le_of_not_lt hd), Nat.le_of_not_lt hd]

/-- A line that is neither INIT with operands nor ENQ with data assembles to a record with 0 in every field (R68). -/
theorem fields_of_assemble_eq_zero (c : Params) {line : AsmLine} (hinit : ∀ b n e, line ≠ .init b n e)
    (henq : ∀ d, line ≠ .enq d) :
    ∃ op p, (assemble c line).cmd c = ⟨op, p, 0, 0, 0, zeros c.emax⟩ := by
  cases line with
  | init b n e => exact absurd rfl (hinit b n e)
  | enq d => exact absurd rfl (henq d)
  | _ => exact ⟨_, _, rfl⟩

/-- Settles O5: the headers and the records are read off the two tables, line by line; an ENQ line that fits the bus is
padded, and a line that is neither INIT nor ENQ writes no field. -/
theorem assemblyLinesGiveTheirHeaders : Obligations.AssemblyLinesGiveTheirHeaders := by
  intro c base cap esize data
  refine ⟨rfl, rfl, rfl, rfl, rfl, rfl, rfl, rfl, rfl, rfl, rfl, rfl, rfl, rfl, rfl, rfl, fun hlen => ?_,
    fun line hinit henq => ?_⟩
  · simp only [assemble, Instr.cmd, busOf_of_length_le hlen]
  · obtain ⟨op, p, hcmd⟩ := fields_of_assemble_eq_zero c hinit henq
    simp only [hcmd, and_self]

end Sys2Proof

namespace Sys2Proof.Machine

/-! ### The command port -/

/-- cmd_ready is 1 exactly out of reset and idle (R60). -/
theorem cmdReady_eq_true_iff (s : State) : cmdReady s = true ↔ s.rst = false ∧ s.phase = .idle := by
  unfold cmdReady
  cases s.phase <;> simp

/-- A clock edge leaves cmd_valid to the host (R60). -/
theorem clockEdge_cmdValid (s : State) : (clockEdge s).cmdValid = s.cmdValid := by
  rcases clockEdge_cases s with ⟨-, h⟩ | ⟨-, -, h⟩ | ⟨b, -, -, h⟩ <;> rw [h]
  · exact resetEdge_cmdValid s
  · rcases busyEdge_cases b s with ⟨t, _, -, -, h⟩ | ⟨-, -, -, -, -, -, -, h⟩ | ⟨-, -, -, -, -, h⟩ | ⟨-, h⟩ <;>
      rw [h]
    · exact performTxn_cmdValid s t
    · exact finalEdge_cmdValid b s

/-- Settles O8: with cmd_valid or cmd_ready at 0 the edge is the controller's, which leaves the host's command; with
both at 1 it is the acceptance. -/
theorem commandTakenExactlyWhenReady : Obligations.CommandTakenExactlyWhenReady := by
  intro s es he
  refine ⟨cmdReady_eq_true_iff s, fun hnot => ?_, fun w ws i hvalid hready hcmds hd => ?_⟩
  · let q : State := { quiet s with env := es }
    have htaken : (q.cmdValid && cmdReady q) = false := Bool.and_eq_false_iff.2 hnot
    refine ⟨clockEdge q, ?_, clockEdge_cmds q, clockEdge_cmdValid q⟩
    rw [step_event he]
    exact risingEdge_of_not_taken htaken
  · obtain ⟨hrst, hidle⟩ := (cmdReady_eq_true_iff s).1 hready
    exact ⟨_, step_accepts he hvalid hrst hidle hcmds hd, rfl, rfl, rfl, rfl, rfl, rfl, rfl, _, rfl, rfl⟩

/-- A word with a bit the ports do not have is refused in place of being run (R58). -/
theorem runWord_of_wide {w : Nat} {s : State} (h : 2 ^ wordBits s.cfg ≤ w) :
    runWord w s = .refused (.notACommandWord .widerThanThePorts) := by
  have hd : decode s.cfg w = .error .widerThanThePorts := if_neg (Nat.not_lt.2 h)
  rw [runWord, hd]

/-- A command presented while cmd_ready is 0 may not be changed (R135 duty 1). -/
theorem changeNext_of_held {v : Nat} {s : State} (hvalid : s.cmdValid = true) (hready : cmdReady s = false) :
    changeNext v s = .refused .commandChangedWhileWaiting := by
  simp [changeNext, hvalid, hready]

/-- A command that is not presented, or that cmd_ready = 1 will take, may be changed. -/
theorem changeNext_of_free {v : Nat} {s : State} (h : s.cmdValid = false ∨ cmdReady s = true) :
    changeNext v s = .next { s with cmds := v :: s.cmds.tail } := by
  rcases h with h | h <;> simp [changeNext, h]

/-- Settles O17: the controller refuses the wide word, and the environment the other breaches, by the levels they meet. -/
theorem hostBreachesAreRefused : Obligations.HostBreachesAreRefused := by
  refine ⟨fun s w ws he hrst hidle hcmds hwide => ?_, fun s w es he => step_event he,
    fun s es he => ⟨fun hv => ?_, fun hv => ?_⟩, fun s es he hcmds => ?_,
    fun s w v ws es he hcmds => ⟨fun hv hready => ?_, fun hfree => ?_⟩⟩
  · rw [step_controller he, controller_word hrst hidle hcmds]
    exact runWord_of_wide hwide
  · simp [step_event he, environment, setCmdValid, hv]
  · simp [step_event he, environment, setCmdValid, hv]
  · obtain ⟨w, ws, hcmds⟩ := List.exists_cons_of_ne_nil hcmds
    exact step_presents he hcmds
  · exact (step_event he).trans (changeNext_of_held hv hready)
  · have htail : s.cmds.tail = ws := by rw [hcmds, List.tail_cons]
    rw [← htail]
    exact (step_event he).trans (changeNext_of_free hfree)

/-! ### Responses -/

/-- Settles O13: a command's plan holds its response, and carrying the plan out puts it on the port (R61). -/
theorem everyCommandResponds : Obligations.EveryCommandResponds := fun i s =>
  ⟨carryOut (planAt i s) s, (planAt i s).rsp, exec_eq_carryOut i s, carryOut_rsp _ s⟩

/-- Settles O31: RSV's plan answers, and carrying that out changes nothing else (R65). -/
theorem rsvChangesNothing : Obligations.RsvChangesNothing := fun s => by
  rw [exec_eq_carryOut]
  exact congrArg _ (carryOut_answerPlan_self .invalidArgument false s)

end Sys2Proof.Machine

/-! PROOFS of the family 40_init_queries.md: INIT builds an empty buffer (R77, R78), and the two queries answer the flags
FULL and EMPTY (R81 to R83). -/

namespace Sys2Proof.Machine

/-! ### Commands that only answer -/

/-- A command whose plan is an answer leaves its response and nothing else (R15, R114). -/
theorem exec_of_answers {i : Instr} {s : State} {code : ResultCode} {flag : Bool}
    (h : planAt i s = answerPlan s.regs code flag) : exec i s = .next (answered s code flag) := by
  rw [exec_eq_carryOut, h, carryOut_answerPlan_self]

theorem exec_qfull (s : State) : exec .qfull s = .next (answered s .ok (full s.regs)) := exec_of_answers rfl

theorem exec_qempty (s : State) : exec .qempty s = .next (answered s .ok (empty s.regs)) := exec_of_answers rfl

/-! ### INIT -/

/-- Fields that fit their ports stand in the registers as they are (R56, R78). -/
theorem initRegs_of_wf {c : Params} {base cap esize : Nat} (h : (Instr.init true base cap esize).wf c = true) (r : Regs) :
    initRegs c r base cap esize =
      { base := base, cap := cap, esize := esize, head := 0, tail := 0, count := 0, copyEn := false, printEn := false
        rdata := r.rdata } := by
  simp only [Instr.wf, Bool.and_eq_true, fitsAddr, fitsCap, fitsEsize, decide_eq_true_eq] at h
  obtain ⟨⟨hbase, hcap⟩, hesize⟩ := h
  rw [initRegs, addrBits_of_lt c hbase, capBits_of_lt c hcap, esizeBits_of_lt c hesize]

/-- A successful INIT answers, and writes the registers of an empty buffer (R78). -/
theorem exec_init_present (base cap esize : Nat) (s : State) :
    exec (.init true base cap esize) s =
      .next { answered s .ok false with regs := initRegs s.cfg s.regs base cap esize } := rfl

/-- Settles O18: the fields reach the registers untruncated, so COUNT = 0 stands beside CAP = F_CAP. -/
theorem initPresentBuildsAnEmptyBuffer : Obligations.InitPresentBuildsAnEmptyBuffer := by
  intro base cap esize s hwf
  have hnext := exec_init_present base cap esize s
  rw [initRegs_of_wf hwf] at hnext
  refine ⟨hnext, fun t ht => ?_⟩
  obtain rfl := Host.Outcome.next.inj (hnext.symm.trans ht)
  exact ⟨rfl, Bool.beq_comm⟩

/-- Settles O19: with P = 0, INIT's plan is an answer. -/
theorem initAbsentChangesNothing : Obligations.InitAbsentChangesNothing := fun _ _ _ _ => exec_of_answers rfl

/-! ### QFULL and QEMPTY -/

/-- The response of a command is its plan's (R61). -/
theorem exec_responds_iff {i : Instr} {s : State} {r : Response} :
    (∃ t, exec i s = .next t ∧ t.rsp = some r) ↔ (planAt i s).rsp = r := by
  simp [exec_next_iff]

/-- ENQ with P = 1 answers FULL exactly on a full buffer (R85). -/
theorem rsp_enq_eq_full_iff (w : List Byte) (s : State) :
    (planAt (.enq true w) s).rsp = ⟨.full, false⟩ ↔ full s.regs = true := by
  cases h : full s.regs
  · simp [planAt, planOf, planEnq_stores h]
  · simp [planAt, planOf, planEnq_full h, answerPlan]

/-- DEQ answers EMPTY exactly on an empty buffer, whatever P is (R91). -/
theorem rsp_deq_eq_empty_iff (p : Bool) (s : State) :
    (planAt (.deq p) s).rsp = ⟨.empty, false⟩ ↔ empty s.regs = true := by
  cases h : empty s.regs
  · simp [planAt, planOf, planDeq_removes h]
  · simp [planAt, planOf, planDeq_empty h, answerPlan]

/-- Settles O20: QFULL's flag and ENQ's path both test FULL. -/
theorem qfullAnswersFull : Obligations.QfullAnswersFull := fun s =>
  ⟨exec_qfull s, fun w => by rw [exec_responds_iff, rsp_enq_eq_full_iff, full_eq_true]⟩

/-- Settles O21: QEMPTY's flag and DEQ's path both test EMPTY. -/
theorem qemptyAnswersEmpty : Obligations.QemptyAnswersEmpty := fun s =>
  ⟨exec_qempty s, fun p => by rw [exec_responds_iff, rsp_deq_eq_empty_iff, empty_eq_true]⟩

/-- Settles O22: the status outputs show the flags the queries answer, in every state, so after every command. -/
theorem queriesAgreeWithTheStatusOutputs : Obligations.QueriesAgreeWithTheStatusOutputs := fun _ _ t _ =>
  ⟨exec_qfull t, exec_qempty t⟩

end Sys2Proof.Machine

/-! PROOFS of the family 41_transfer.md: a storing ENQ and a removing DEQ, their paths (R85 to R97), the occupied slots
(R98), and the buffer as a FIFO queue (R99, R100). -/

namespace Sys2Proof.Machine

/-! ### The paths of ENQ and DEQ -/

theorem storing_eq_true_iff {i : Instr} {r : Regs} : storing i r = true ↔ ∃ w, i = .enq true w ∧ full r = false := by
  cases i <;> simp [storing, and_comm]

theorem removing_eq_true_iff {i : Instr} {r : Regs} : removing i r = true ↔ ∃ p, i = .deq p ∧ empty r = false := by
  cases i <;> simp [removing]

section
variable (c : Params) (r : Regs) (p : Bool) (slot : List Byte)

@[simp] theorem enqRegs_cap : (enqRegs c r).cap = r.cap := rfl
@[simp] theorem enqRegs_esize : (enqRegs c r).esize = r.esize := rfl
@[simp] theorem enqRegs_copyEn : (enqRegs c r).copyEn = r.copyEn := rfl
@[simp] theorem deqRegs_cap : (deqRegs c r p slot).cap = r.cap := rfl
@[simp] theorem deqRegs_esize : (deqRegs c r p slot).esize = r.esize := rfl
@[simp] theorem deqRegs_copyEn : (deqRegs c r p slot).copyEn = r.copyEn := rfl

end

section
variable {c : Params} {r : Regs} (h : r.Inv c)
include h

theorem Regs.head_lt (hcap : 0 < r.cap) : r.head < r.cap := by
  obtain ⟨-, -, ⟨h2, -⟩, -⟩ := h
  exact (h2 hcap).1

theorem Regs.tail_lt (hcap : 0 < r.cap) : r.tail < r.cap := by
  obtain ⟨-, -, ⟨h2, -⟩, -⟩ := h
  exact (h2 hcap).2

theorem Regs.count_lt_of_not_full (hf : full r = false) : r.count < r.cap := by
  obtain ⟨-, h1, -, -⟩ := h
  exact lt_of_le_of_ne h1 (full_eq_false.1 hf)

theorem Regs.cap_pos_of_not_empty (he : empty r = false) : 0 < r.cap := by
  obtain ⟨-, h1, -, -⟩ := h
  exact (Nat.pos_of_ne_zero (empty_eq_false.1 he)).trans_le h1

/-- On R35, nothing of a storing ENQ's registers is truncated (R88). -/
theorem enqRegs_eq (hf : full r = false) :
    enqRegs c r = { r with tail := (r.tail + 1) % r.cap, count := r.count + 1 } := by
  have hlt := Regs.count_lt_of_not_full h hf
  have ht := Regs.tail_lt h (by omega)
  obtain ⟨⟨hcap, -⟩, -⟩ := h
  rw [enqRegs, inc_eq c ht hcap, capBits_of_lt c (by omega)]

/-- On R35, nothing of a removing DEQ's registers is truncated (R93, R94). -/
theorem deqRegs_eq (he : empty r = false) (p : Bool) (slot : List Byte) :
    deqRegs c r p slot =
      { r with rdata := if p then setLanes r.rdata r.esize (copiedOut c r slot) else r.rdata
               head := (r.head + 1) % r.cap, count := r.count - 1 } := by
  have hh := Regs.head_lt h (Regs.cap_pos_of_not_empty h he)
  obtain ⟨⟨hcap, -, -, -, -, hcount, -⟩, -⟩ := h
  rw [deqRegs, inc_eq c hh hcap, capBits_of_lt c (by omega)]

/-- Lanes below ESIZE of RDATA receive what a removing DEQ with P = 1 copies out, the upper lanes stay (R93). -/
theorem rdata_deqRegs_present (hc : c.BusOk) {slot : List Byte} (hslot : slot.length = r.esize) :
    (deqRegs c r true slot).rdata = copiedOut c r slot ++ r.rdata.drop r.esize := by
  obtain ⟨⟨-, hesize, -, -, -, -, hrdata⟩, -⟩ := h
  exact setLanes_eq_append (length_copiedOut c r hslot) (hrdata ▸ esize_le_emax hc hesize)

end

/-- What carrying out a plan with these registers and this response leaves unchanged. -/
theorem carryOut_eq_of {p : Plan} {r : Regs} {a : Response} (hr : p.regs = r) (ha : p.rsp = a) (s : State) :
    carryOut p s =
      { s with regs := r, phase := .idle, mem := (carryOut p s).mem, draws := (carryOut p s).draws, rsp := some a,
               trace := (carryOut p s).trace, bus := (carryOut p s).bus, copyUse := (carryOut p s).copyUse } := by
  subst hr ha
  exact carryOut_eq p s

/-- The element a storing ENQ stores, on a bus that carries it (R88). -/
theorem storedBytes_eq {r : Regs} {w : List Byte} (hw : r.esize ≤ w.length) (c : Params) (old : List Byte) :
    storedBytes c r w old = if r.copyEn then copyFn c r.esize old (w.take r.esize) else w.take r.esize := by
  rw [storedBytes, lanes_eq_take hw]

section
variable {s : State}

section
variable (hf : full s.regs = false) (w : List Byte)
include hf

theorem regs_planAt_enq : (planAt (.enq true w) s).regs = enqRegs s.cfg s.regs :=
  congrArg Plan.regs (planEnq_stores hf w (enqSlot s))

theorem rsp_planAt_enq : (planAt (.enq true w) s).rsp = ⟨.ok, false⟩ :=
  congrArg Plan.rsp (planEnq_stores hf w (enqSlot s))

theorem trace_planAt_enq : (planAt (.enq true w) s).trace =
    traceOf s.cfg s.regs (enqRegs s.cfg s.regs) .enq (storedBytes s.cfg s.regs w (enqSlot s)) :=
  congrArg Plan.trace (planEnq_stores hf w (enqSlot s))

theorem mem_carryOut_enq : (carryOut (planAt (.enq true w) s) s).mem =
    memWrite s.cfg s.draws s.mem (slotAddr s.cfg s.regs s.regs.tail) (storedBytes s.cfg s.regs w (enqSlot s)) :=
  enq_mem hf w

end

section
variable (he : empty s.regs = false) (p : Bool)
include he

theorem regs_planAt_deq : (planAt (.deq p) s).regs = deqRegs s.cfg s.regs p (deqSlot s) :=
  congrArg Plan.regs (planDeq_removes he p (deqSlot s))

theorem rsp_planAt_deq : (planAt (.deq p) s).rsp = ⟨.ok, false⟩ :=
  congrArg Plan.rsp (planDeq_removes he p (deqSlot s))

theorem trace_planAt_deq : (planAt (.deq p) s).trace =
    traceOf s.cfg s.regs (deqRegs s.cfg s.regs p (deqSlot s)) .deq (deqSlot s) :=
  congrArg Plan.trace (planDeq_removes he p (deqSlot s))

theorem copyUse_planAt_deq : (planAt (.deq p) s).copyUse =
    if p && s.regs.copyEn then
      some ⟨s.regs.esize, lanes s.regs.rdata s.regs.esize, deqSlot s, copiedOut s.cfg s.regs (deqSlot s)⟩
    else none :=
  congrArg Plan.copyUse (planDeq_removes he p (deqSlot s))

theorem mem_carryOut_deq : (carryOut (planAt (.deq p) s) s).mem =
    if s.cfg.clearOnRemove then
      memWrite s.cfg s.draws s.mem (slotAddr s.cfg s.regs s.regs.head) (zeros s.regs.esize)
    else s.mem :=
  deq_mem he p

end
end

/-! ### The bytes of storage after one write -/

section
variable {s t : State} {d a n x : Nat} {bs : List Byte} (hcfg : t.cfg = s.cfg) (hn : bs.length = n)
  (hmem : t.mem = memWrite s.cfg d s.mem a bs)
include hcfg hn hmem

theorem byteAt_outside_memWrite (hx : ¬ InSlot s.cfg a n x) : t.byteAt x = s.byteAt x := by
  subst hn
  rw [State.byteAt, hcfg, hmem]
  exact read_memWrite_ne _ (fun k hk he => hx ⟨k, hk, he⟩) _

theorem byteAt_memWrite (hle : n ≤ 2 ^ s.cfg.addrW) {k : Nat} (hk : k < n) : t.byteAt (a + k) = bs.getD k 0 := by
  subst hn
  rw [State.byteAt, hcfg, hmem, read_memWrite _ hk hle, List.getD_eq_getElem _ _ hk]

theorem byteAt_inside_memWrite (hx : InSlot s.cfg a n x) :
    ∃ j < n, addrBits s.cfg (a + j) = addrBits s.cfg x ∧ t.byteAt x = bs.getD j 0 := by
  obtain ⟨k, hk, hkx⟩ := hx
  subst hn
  obtain ⟨j, hj, hjk, hread⟩ := read_memWrite_some s.cfg (d := d) (a := a) hk s.mem
  refine ⟨j, hj, hjk.trans hkx, ?_⟩
  rw [State.byteAt, hcfg, hmem, ← hkx, hread, List.getD_eq_getElem _ _ hj]

end

/-- A removing DEQ clears its slot with CLEAR_ON_REMOVE, and leaves every other byte of storage (R95). -/
theorem byteAt_carryOut_deq {s : State} (he : empty s.regs = false) (p : Bool) (x : Nat) :
    (InSlot s.cfg (slotAddr s.cfg s.regs s.regs.head) s.regs.esize x →
      (carryOut (planAt (.deq p) s) s).byteAt x = if s.cfg.clearOnRemove then 0 else s.byteAt x) ∧
    (¬ InSlot s.cfg (slotAddr s.cfg s.regs s.regs.head) s.regs.esize x →
      (carryOut (planAt (.deq p) s) s).byteAt x = s.byteAt x) := by
  have hmem := mem_carryOut_deq he p
  have hcfg := carryOut_cfg (planAt (.deq p) s) s
  cases hc : s.cfg.clearOnRemove <;> simp only [hc, if_true, Bool.false_eq_true, if_false] at hmem ⊢
  · have hkeep : (carryOut (planAt (.deq p) s) s).byteAt x = s.byteAt x := by rw [State.byteAt, hmem, hcfg, State.byteAt]
    exact ⟨fun _ => hkeep, fun _ => hkeep⟩
  · have hlen : (zeros s.regs.esize).length = s.regs.esize := List.length_replicate
    refine ⟨fun hx => ?_, byteAt_outside_memWrite hcfg hlen hmem⟩
    obtain ⟨j, hj, -, h⟩ := byteAt_inside_memWrite hcfg hlen hmem hx
    rw [h, List.getD_replicate _ hj]

/-! ### ENQ -/

/-- Settles O23: P is tested before FULL, and both paths only answer. -/
theorem enqThatDoesNotStoreWritesNothing : Obligations.EnqThatDoesNotStoreWritesNothing := fun w s =>
  ⟨exec_of_answers rfl, fun hc => exec_of_answers (planEnq_full (full_eq_true.2 hc) w (enqSlot s)), fun hinv hne =>
    have hlt := Regs.count_lt_of_not_full hinv (full_eq_false.2 hne)
    ⟨hlt, Regs.tail_lt hinv (Nat.zero_lt_of_lt hlt)⟩⟩

/-- Settles O24: the plan's registers are exact on R35, and its one write puts the stored bytes on the slot at TAIL. -/
theorem enqStoresTheElementAtTail : Obligations.EnqStoresTheElementAtTail := by
  intro w s ⟨_, hbus, _⟩ hinv hw hlt r a src v
  have hf : full s.regs = false := full_eq_false.2 hlt.ne
  have hesize : s.regs.esize ≤ w.length := by
    obtain ⟨⟨-, hesize, -⟩, -⟩ := hinv
    exact hw ▸ esize_le_emax hbus hesize
  have hv : v = storedBytes s.cfg s.regs w (enqSlot s) := (storedBytes_eq hesize s.cfg (enqSlot s)).symm
  have hlen : v.length = r.esize := by rw [hv, length_storedBytes]
  have hmem := mem_carryOut_enq hf w
  rw [← hv] at hmem
  have hcfg := carryOut_cfg (planAt (.enq true w) s) s
  refine ⟨hlen, carryOut (planAt (.enq true w) s) s, exec_eq_carryOut _ s,
    carryOut_eq_of ((regs_planAt_enq hf w).trans (enqRegs_eq hinv hf)) (rsp_planAt_enq hf w) s,
    fun hle k hk => byteAt_memWrite hcfg hlen hmem hle hk,
    fun k hk => byteAt_inside_memWrite hcfg hlen hmem ⟨k, hk, rfl⟩,
    fun x hx => byteAt_outside_memWrite hcfg hlen hmem hx⟩

/-! ### DEQ -/

/-- Settles O25: on an empty buffer DEQ only answers, whatever P is. -/
theorem deqOnEmptyChangesNothing : Obligations.DeqOnEmptyChangesNothing := fun p s =>
  ⟨fun hc => exec_of_answers (planDeq_empty (empty_eq_true.2 hc) p (deqSlot s)), fun hinv hne =>
    have hcap := Regs.cap_pos_of_not_empty hinv (empty_eq_false.2 hne)
    ⟨hcap, Regs.head_lt hinv hcap⟩⟩

/-- The registers a removing DEQ with P = 1 leaves in a state that keeps R35 (R93). -/
theorem deqRegs_present_eq {s : State} (hc : s.cfg.BusOk) (hinv : s.regs.Inv s.cfg) (he : empty s.regs = false) :
    deqRegs s.cfg s.regs true (deqSlot s) =
      { s.regs with
        head := (s.regs.head + 1) % s.regs.cap, count := s.regs.count - 1
        rdata := (if s.regs.copyEn then copyFn s.cfg s.regs.esize (s.regs.rdata.take s.regs.esize) (deqSlot s)
          else deqSlot s) ++ s.regs.rdata.drop s.regs.esize } := by
  have hrdata := rdata_deqRegs_present hinv hc (length_deqSlot s)
  have hle : s.regs.esize ≤ s.regs.rdata.length := by
    obtain ⟨⟨-, hesize, -, -, -, -, hlen⟩, -⟩ := hinv
    exact hlen ▸ esize_le_emax hc hesize
  rw [copiedOut, lanes_eq_take hle] at hrdata
  rw [← hrdata, deqRegs_eq hinv he]

/-- Settles O26: the plan's registers are exact on R35, and its one write, if any, clears the slot at HEAD. -/
theorem deqCopiesTheElementAtHeadOut : Obligations.DeqCopiesTheElementAtHeadOut := by
  intro s ⟨_, hbus, _⟩ hinv hpos r a slot d
  have he : empty s.regs = false := empty_eq_false.2 hpos.ne'
  exact ⟨carryOut (planAt (.deq true) s) s, exec_eq_carryOut _ s,
    carryOut_eq_of ((regs_planAt_deq he true).trans (deqRegs_present_eq hbus hinv he)) (rsp_planAt_deq he true) s,
    fun x => (byteAt_carryOut_deq he true x).1, fun x => (byteAt_carryOut_deq he true x).2⟩

/-- Settles O27: with P = 0, the plan of a removing DEQ keeps RDATA and leaves the copy unit alone. -/
theorem deqDiscardLeavesRdata : Obligations.DeqDiscardLeavesRdata := by
  intro s _ hinv hpos r a
  have he : empty s.regs = false := empty_eq_false.2 hpos.ne'
  have hframe := carryOut_eq_of ((regs_planAt_deq he false).trans (deqRegs_eq hinv he false (deqSlot s)))
    (rsp_planAt_deq he false) s
  rw [carryOut_copyUse, copyUse_planAt_deq he] at hframe
  exact ⟨carryOut (planAt (.deq false) s) s, exec_eq_carryOut _ s, hframe,
    fun x => (byteAt_carryOut_deq he false x).1, fun x => (byteAt_carryOut_deq he false x).2⟩

/-! ### The trace of transfers -/

/-- The event a transfer of these bytes emits while PRINT_EN = 1 (R103). -/
theorem traceOf_eq {c : Params} {r : Regs} (hle : r.esize ≤ c.emax) {bytes : List Byte} (hb : bytes.length = r.esize)
    (after : Regs) (kind : TraceKind) :
    traceOf c r after kind bytes =
      if r.printEn then
        some { kind := kind, len := r.esize, elem := bytes ++ List.replicate (c.emax - r.esize) 0, head := after.head
               tail := after.tail, count := after.count }
      else none := by
  rw [traceOf, setLanes_eq_append hb (by simpa using hle), List.drop_replicate]

/-- Settles O34: only the plans of a storing ENQ and a removing DEQ hold a trace event. -/
theorem traceEventsAreThoseOfTheRule : Obligations.TraceEventsAreThoseOfTheRule := by
  intro i s t ⟨_, hbus, _⟩ hinv h r event
  rw [exec_next_iff] at h
  subst h
  have hle : s.regs.esize ≤ s.cfg.emax := by
    obtain ⟨⟨-, hesize, -⟩, -⟩ := hinv
    exact esize_le_emax hbus hesize
  rw [carryOut_trace]
  rcases planAt_cases i s with ⟨code, flag, h, hs, hr⟩ | ⟨base, cap, esize, rfl⟩ | ⟨p, rfl⟩ | ⟨p, rfl⟩ | ⟨w, rfl, hf⟩ |
    ⟨p, rfl, he⟩
  · simp [h, answerPlan, r, hs, hr]
  · simp [planAt, planOf, planInit, answerPlan, storing, removing]
  · simp [planAt, planOf, planSetcopy, answerPlan, storing, removing]
  · simp [planAt, planOf, planSetprint, answerPlan, storing, removing]
  · have hs : storing (.enq true w) s.regs = true := storing_eq_true_iff.2 ⟨w, rfl, hf⟩
    rw [trace_planAt_enq hf, traceOf_eq hle (by simp)]
    simp [r, event, hs, removing, storedBy, regs_planAt_enq hf]
  · have hr : removing (.deq p) s.regs = true := removing_eq_true_iff.2 ⟨p, rfl, he⟩
    rw [trace_planAt_deq he, traceOf_eq hle (by simp)]
    simp [r, event, hr, storing, regs_planAt_deq he]

/-! ### CLEAR_ON_REMOVE -/

/-- A write depends on the address width and the storage contents at reset only. -/
theorem memWrite_clearOnRemove (c : Params) (b : Bool) (d a : Nat) (m : List Host.Cell) (bs : List Byte) :
    memWrite { c with clearOnRemove := b } d m a bs = memWrite c d m a bs := by
  suffices h : ∀ l : List Byte, writeFrom { c with clearOnRemove := b } m a l = writeFrom c m a l from h (landing c d bs)
  intro l
  induction l generalizing m a with
  | nil => rfl
  | cons x xs ih => exact ih (a + 1) (Memory.write c m (addrBits c a) x)

/-- The machine with CLEAR_ON_REMOVE at b. -/
def State.withClearOnRemove (s : State) (b : Bool) : State := { s with cfg := { s.cfg with clearOnRemove := b } }

/-- A command's plan holds CLEAR_ON_REMOVE in its transactions only (R95). -/
theorem planAt_withClearOnRemove (i : Instr) (s : State) (b : Bool) :
    planAt i (s.withClearOnRemove b) = { planAt i s with txns := (planAt i (s.withClearOnRemove b)).txns } := by
  cases i with
  | deq p =>
    cases he : empty s.regs
    · simp only [planAt, planOf, State.withClearOnRemove, planDeq_removes he]
      rfl
    · simp only [planAt, planOf, State.withClearOnRemove, planDeq_empty he]
  | _ => rfl

/-- The storage memory a command leaves depends on CLEAR_ON_REMOVE only if it removes an element (R95). -/
theorem mem_carryOut_withClearOnRemove {i : Instr} {s : State} (h : removing i s.regs = false) (b : Bool) :
    (carryOut (planAt i (s.withClearOnRemove b)) (s.withClearOnRemove b)).mem = (carryOut (planAt i s) s).mem := by
  cases hs : storing i s.regs
  · have hnil := txns_planAt_eq_nil hs h
    have hnil' : (planAt i (s.withClearOnRemove b)).txns = [] := txns_planAt_eq_nil hs h
    rw [carryOut_mem, carryOut_mem, hnil, hnil']
    rfl
  · obtain ⟨w, rfl, hf⟩ := storing_eq_true_iff.1 hs
    have hf' : full (s.withClearOnRemove b).regs = false := hf
    rw [mem_carryOut_enq hf, mem_carryOut_enq hf']
    exact memWrite_clearOnRemove _ _ _ _ _ _

/-- Settles O28: both plans differ in their transactions only, and there in the clearing write of a removing DEQ. -/
theorem clearOnRemoveShowsOnlyInStorage : Obligations.ClearOnRemoveShowsOnlyInStorage := by
  intro i s
  have hon := planAt_withClearOnRemove i s true
  have hoff := planAt_withClearOnRemove i s false
  refine ⟨carryOut (planAt i (s.withClearOnRemove true)) (s.withClearOnRemove true),
    carryOut (planAt i (s.withClearOnRemove false)) (s.withClearOnRemove false),
    exec_eq_carryOut _ _, exec_eq_carryOut _ _, ?_, ?_, ?_, ?_, fun h => ?_, fun h => ?_⟩
  · rw [carryOut_regs, carryOut_regs, hon, hoff]
  · rw [carryOut_rsp, carryOut_rsp, hon, hoff]
  · rw [carryOut_trace, carryOut_trace, hon, hoff]
  · rw [carryOut_copyUse, carryOut_copyUse, hon, hoff]
  · rw [mem_carryOut_withClearOnRemove h, mem_carryOut_withClearOnRemove h]
  · obtain ⟨p, rfl, he⟩ := removing_eq_true_iff.1 h
    have he' : empty (s.withClearOnRemove false).regs = false := he
    rw [mem_carryOut_deq he']
    rfl

/-! ### The occupied slots -/

/-- The occupied slots are distinct: fewer than CAP steps from HEAD meet no slot twice (R98). -/
theorem nodup_occupied {r : Regs} (h : r.count ≤ r.cap) : (occupied r).Nodup := by
  refine List.Nodup.map_on (fun i hi j hj hij => ?_) List.nodup_range
  have hmod : i ≡ j [MOD r.cap] := Nat.ModEq.add_left_cancel' r.head hij
  exact hmod.eq_of_lt_of_lt ((List.mem_range.1 hi).trans_le h) ((List.mem_range.1 hj).trans_le h)

theorem lt_cap_of_mem_occupied {r : Regs} (h : r.count ≤ r.cap) {i : Nat} (hi : i ∈ occupied r) : i < r.cap := by
  obtain ⟨k, hk, rfl⟩ := List.mem_map.1 hi
  exact Nat.mod_lt _ ((Nat.zero_lt_of_lt (List.mem_range.1 hk)).trans_le h)

@[simp] theorem length_occupied (r : Regs) : (occupied r).length = r.count := by simp [occupied]

/-- A storing ENQ occupies the slot at TAIL (R98). -/
theorem occupied_enqRegs {c : Params} {r : Regs} (h : r.Inv c) (hf : full r = false) :
    occupied (enqRegs c r) = occupied r ++ [r.tail] := by
  have hlt := Regs.count_lt_of_not_full h hf
  rw [enqRegs_eq h hf]
  obtain ⟨-, -, -, h4⟩ := h
  simp [occupied, List.range_succ, h4 (Nat.zero_lt_of_lt hlt)]

/-- The slot at TAIL is free while the buffer is not full (R98). -/
theorem tail_not_mem_occupied {c : Params} {r : Regs} (h : r.Inv c) (hf : full r = false) : r.tail ∉ occupied r := by
  obtain ⟨-, h1, -, -⟩ := Regs.inv_enqRegs h hf
  have hnodup := nodup_occupied h1
  rw [occupied_enqRegs h hf] at hnodup
  exact fun hmem => (List.disjoint_of_nodup_append hnodup) hmem (List.mem_singleton_self _)

/-- A removing DEQ frees the slot at HEAD, the oldest of the occupied ones (R98). -/
theorem occupied_eq_head_cons {c : Params} {r : Regs} (h : r.Inv c) (he : empty r = false) (p : Bool)
    (slot : List Byte) : occupied r = r.head :: occupied (deqRegs c r p slot) := by
  have hhead := Regs.head_lt h (Regs.cap_pos_of_not_empty h he)
  obtain ⟨n, hn⟩ := Nat.exists_eq_succ_of_ne_zero (empty_eq_false.1 he)
  rw [deqRegs_eq h he]
  simp [occupied, hn, List.range_succ_eq_map, Nat.mod_eq_of_lt hhead, Nat.add_assoc, Nat.add_comm 1]

/-- Settles O47: by the registers each command leaves. -/
theorem occupiedSlotsMoveOneAtATime : Obligations.OccupiedSlotsMoveOneAtATime := by
  intro i s t hinv h
  rw [exec_next_iff] at h
  subst h
  rw [carryOut_regs]
  refine ⟨fun hs => ?_, fun hr => ?_, fun hs hr hinit => ?_⟩
  · obtain ⟨w, rfl, hf⟩ := storing_eq_true_iff.1 hs
    rw [regs_planAt_enq hf]
    exact ⟨occupied_enqRegs hinv hf, tail_not_mem_occupied hinv hf⟩
  · obtain ⟨p, rfl, he⟩ := removing_eq_true_iff.1 hr
    rw [regs_planAt_deq he, occupied_eq_head_cons hinv he p (deqSlot s), List.tail_cons]
  · rw [planAt]
    rcases regs_planOf_cases s.cfg s.regs (slotSeen i s) i with
      h | ⟨base, cap, esize, rfl, -⟩ | ⟨p, -, h⟩ | ⟨p, -, h⟩ | ⟨w, rfl, hf, -⟩ | ⟨p, rfl, he, -⟩
    · rw [h]
    · exact absurd rfl (hinit base cap esize)
    · rw [h]
      rfl
    · rw [h]
      rfl
    · simp [storing, hf] at hs
    · simp [removing, he] at hr

/-! ### The queue -/

/-- The bytes slot i holds (R40). -/
def slotBytes (c : Params) (r : Regs) (m : List Host.Cell) (i : Nat) : List Byte :=
  memRead c m (slotAddr c r i) r.esize

theorem queue_eq_map (s : State) : queue s = (occupied s.regs).map (slotBytes s.cfg s.regs s.mem) := rfl

@[simp] theorem length_queue (s : State) : (queue s).length = s.regs.count := by simp [queue]

/-- Two slots of a block that fits the address space share no byte (R41, R99). -/
theorem slots_disjoint {c : Params} {r : Regs} (hfit : r.cap * r.esize ≤ 2 ^ c.addrW) {i j k l : Nat} (hi : i < r.cap)
    (hj : j < r.cap) (hk : k < r.esize) (hl : l < r.esize) (hij : i ≠ j) :
    addrBits c (slotAddr c r i + k) ≠ addrBits c (slotAddr c r j + l) := by
  have below : ∀ {i k}, i < r.cap → k < r.esize → i * r.esize + k < 2 ^ c.addrW := fun {i k} hi hk => by
    have hle := Nat.mul_le_mul_right r.esize (Nat.succ_le_of_lt hi)
    rw [Nat.succ_mul] at hle
    omega
  have index : ∀ {i k}, k < r.esize → (i * r.esize + k) / r.esize = i := fun {i k} hk => by
    rw [Nat.add_comm, Nat.add_mul_div_right _ _ (by omega), Nat.div_eq_of_lt hk, Nat.zero_add]
  intro h
  rw [addrBits_slotAddr_add, addrBits_slotAddr_add, Nat.add_assoc, Nat.add_assoc] at h
  have hoff := addrBits_inj c (below hi hk) (below hj hl) h
  exact hij (by rw [← index (i := i) hk, hoff, index hl])

/-- A write of one slot leaves the others of a block that fits. -/
theorem map_slotBytes_memWrite {c : Params} {r : Regs} (hfit : r.cap * r.esize ≤ 2 ^ c.addrW) {j : Nat} (hj : j < r.cap)
    {bs : List Byte} (hbs : bs.length = r.esize) (d : Nat) (m : List Host.Cell) {is : List Nat}
    (his : ∀ i ∈ is, i < r.cap ∧ i ≠ j) :
    is.map (slotBytes c r (memWrite c d m (slotAddr c r j) bs)) = is.map (slotBytes c r m) := by
  refine List.map_congr_left fun i hi => memRead_memWrite_disjoint c (fun k hk l hl => ?_) m
  obtain ⟨hicap, hij⟩ := his i hi
  exact slots_disjoint hfit hj hicap (hbs ▸ hl) hk hij.symm

/-- A slot reads back what was written to it. -/
theorem slotBytes_memWrite_self {c : Params} {r : Regs} {bs : List Byte} (hbs : bs.length = r.esize)
    (hle : r.esize ≤ 2 ^ c.addrW) (d j : Nat) (m : List Host.Cell) :
    slotBytes c r (memWrite c d m (slotAddr c r j) bs) j = bs := by
  rw [slotBytes, ← hbs, memRead_memWrite_self c (hbs ▸ hle)]

section
variable {s : State} (hinv : s.regs.Inv s.cfg) (hfit : BlockFits s)
include hinv hfit

/-- A storing ENQ adds what it stores as the newest element: its slot was free, and the occupied ones stay (R99). -/
theorem queue_carryOut_enq (hf : full s.regs = false) (w : List Byte) :
    queue (carryOut (planAt (.enq true w) s) s) = queue s ++ [storedBytes s.cfg s.regs w (enqSlot s)] := by
  have hlt := Regs.count_lt_of_not_full hinv hf
  have htail := Regs.tail_lt hinv (Nat.zero_lt_of_lt hlt)
  have hlen := length_storedBytes s.cfg s.regs w (enqSlot s)
  have hle : s.regs.esize ≤ 2 ^ s.cfg.addrW :=
    (Nat.le_mul_of_pos_left _ (Nat.zero_lt_of_lt hlt)).trans hfit
  have hkeep := map_slotBytes_memWrite hfit htail hlen s.draws s.mem (is := occupied s.regs) fun i hi =>
    ⟨lt_cap_of_mem_occupied hlt.le hi, fun hij => tail_not_mem_occupied hinv hf (hij ▸ hi)⟩
  have hslot := slotBytes_memWrite_self hlen hle s.draws s.regs.tail s.mem
  calc queue (carryOut (planAt (.enq true w) s) s)
      = (occupied (enqRegs s.cfg s.regs)).map (slotBytes s.cfg s.regs
          (memWrite s.cfg s.draws s.mem (slotAddr s.cfg s.regs s.regs.tail)
            (storedBytes s.cfg s.regs w (enqSlot s)))) := by
        rw [queue_eq_map, carryOut_regs, carryOut_cfg, mem_carryOut_enq hf, regs_planAt_enq hf]
        rfl
    _ = queue s ++ [storedBytes s.cfg s.regs w (enqSlot s)] := by
        rw [occupied_enqRegs hinv hf, List.map_append, hkeep, List.map_singleton, hslot, queue_eq_map]

/-- The oldest element of a buffer that is not empty is the one in the slot at HEAD, and a removing DEQ leaves the
others: clearing the slot at HEAD touches none of them (R95, R99). -/
theorem queue_eq_deqSlot_cons (he : empty s.regs = false) (p : Bool) :
    queue s = deqSlot s :: queue (carryOut (planAt (.deq p) s) s) := by
  have hhead := Regs.head_lt hinv (Regs.cap_pos_of_not_empty hinv he)
  have hcons := occupied_eq_head_cons hinv he p (deqSlot s)
  have hcount : s.regs.count ≤ s.regs.cap := by
    obtain ⟨-, h1, -, -⟩ := hinv
    exact h1
  have hnodup := nodup_occupied hcount
  rw [hcons, List.nodup_cons] at hnodup
  obtain ⟨hfree, -⟩ := hnodup
  have hkeep := map_slotBytes_memWrite hfit hhead (List.length_replicate (a := (0 : Byte))) s.draws s.mem
    (is := occupied (deqRegs s.cfg s.regs p (deqSlot s))) fun i hi =>
    ⟨lt_cap_of_mem_occupied hcount (hcons ▸ List.mem_cons_of_mem _ hi), fun hij => hfree (hij ▸ hi)⟩
  have hrest : queue (carryOut (planAt (.deq p) s) s) =
      (occupied (deqRegs s.cfg s.regs p (deqSlot s))).map (slotBytes s.cfg s.regs s.mem) := by
    rw [← hkeep, queue_eq_map, carryOut_regs, carryOut_cfg, mem_carryOut_deq he, regs_planAt_deq he]
    split
    · rfl
    · exact hkeep.symm
  rw [hrest, queue_eq_map, hcons, List.map_cons]
  rfl

end

/-- Settles O48: by the paths of ENQ and DEQ; the other commands change no slot, and INIT leaves none occupied. -/
theorem commandsActOnTheQueueAsAFifo : Obligations.CommandsActOnTheQueueAsAFifo := by
  intro i s t _ hinv hfit h
  rw [exec_next_iff] at h
  subst h
  cases i with
  | enq p w =>
    cases p
    · rfl
    · cases hf : full s.regs
      · rw [queue_carryOut_enq hinv hfit hf]
        simp [queueAfter, hf, storedBy]
      · have hkeep : queueAfter (.enq true w) s.regs (storedBy (.enq true w) s) (queue s) = queue s := by
          simp [queueAfter, hf]
        rw [hkeep, planAt, planOf, planEnq_full hf]
        rfl
  | deq p =>
    cases he : empty s.regs
    · rw [queueAfter, queue_eq_deqSlot_cons hinv hfit he p, List.tail_cons]
    · have hnil : queue s = [] := List.eq_nil_of_length_eq_zero (by simpa using he)
      rw [planAt, planOf, planDeq_empty he, queueAfter, hnil]
      exact hnil
  | init p base cap esize => cases p <;> rfl
  | qfull => rfl
  | qempty => rfl
  | setcopy p => rfl
  | setprint p => rfl
  | rsv => rfl

/-! ### Runs of commands -/

theorem runCommands_cons (i : Instr) (is : List Instr) (s : State) :
    runCommands (i :: is) s = runCommands is (carryOut (planAt i s) s) := by rw [runCommands, exec_eq_carryOut]

/-- While there is room, every ENQ of a run stores and COUNT counts them, whatever the elements are (R100). -/
theorem runCommands_enqs (elems : List (List Byte)) {s : State} (hinv : s.regs.Inv s.cfg)
    (hroom : s.regs.count + elems.length ≤ s.regs.cap) :
    ∃ t, runCommands (elems.map (.enq true)) s = .next t ∧ t.regs.cap = s.regs.cap ∧
      t.regs.count = s.regs.count + elems.length ∧ (elems ≠ [] → t.rsp = some ⟨.ok, false⟩) := by
  induction elems generalizing s with
  | nil => exact ⟨s, rfl, rfl, rfl, fun h => absurd rfl h⟩
  | cons w ws ih =>
    rw [List.length_cons] at hroom ⊢
    have hf : full s.regs = false := full_eq_false.2 (by omega)
    let u := carryOut (planAt (.enq true w) s) s
    have hregs : u.regs = enqRegs s.cfg s.regs := regs_planAt_enq hf w
    have hucap : u.regs.cap = s.regs.cap := by rw [hregs, enqRegs_cap]
    have hucount : u.regs.count = s.regs.count + 1 := congrArg Regs.count (hregs.trans (enqRegs_eq hinv hf))
    have huinv : u.regs.Inv u.cfg := (carryOut_cfg _ s).symm ▸ Regs.inv_planOf hinv _ (.enq true w)
    obtain ⟨t, hrun, hcap, hcount, hrsp⟩ := ih huinv (by omega)
    refine ⟨t, (runCommands_cons _ _ s).trans hrun, hcap.trans hucap, by omega, fun _ => ?_⟩
    cases ws with
    | nil =>
      obtain rfl : u = t := Host.Outcome.next.inj hrun
      exact congrArg some (rsp_planAt_enq hf w)
    | cons v vs => exact hrsp (List.cons_ne_nil v vs)

/-- Settles O50: the run stores every element, and at COUNT = CAP the next ENQ only answers. -/
theorem capacityManyEnqueuesFillTheBuffer : Obligations.CapacityManyEnqueuesFillTheBuffer := by
  intro s elems last _ hinv hempty hlen
  constructor
  · intro k hk
    have hlenk : (elems.take (k + 1)).length = k + 1 := List.length_take_of_le hk
    obtain ⟨t, hrun, -, hcount, hrsp⟩ := runCommands_enqs (elems.take (k + 1)) hinv (by omega)
    exact ⟨t, hrun, hrsp (List.ne_nil_of_length_eq_add_one hlenk), by omega⟩
  · obtain ⟨t, hrun, hcap, hcount, -⟩ := runCommands_enqs elems hinv (by omega)
    have hf : full t.regs = true := full_eq_true.2 (by omega)
    exact ⟨t, hrun, hf, exec_of_answers (planEnq_full hf last (enqSlot t))⟩

/-! ### Runs on a buffer without a copy hook -/

/-- A buffer of configuration c without a copy hook, of n disjoint slots of e bytes, that keeps R35 and holds the
elements of q, oldest first. -/
structure RawBuffer (c : Params) (n e : Nat) (q : List (List Byte)) (s : State) : Prop where
  bus : c.BusOk
  fits : n * e ≤ 2 ^ c.addrW
  cfg : s.cfg = c
  cap : s.regs.cap = n
  esize : s.regs.esize = e
  copyEn : s.regs.copyEn = false
  inv : s.regs.Inv s.cfg
  holds : queue s = q

namespace RawBuffer

variable {c : Params} {n e : Nat} {q : List (List Byte)} {s : State}

theorem of_state (hc : s.cfg.Ok) (hinv : s.regs.Inv s.cfg) (hfit : BlockFits s) (hcopy : s.regs.copyEn = false) :
    RawBuffer s.cfg s.regs.cap s.regs.esize (queue s) s := by
  obtain ⟨-, hbus, -⟩ := hc
  exact ⟨hbus, hfit, rfl, rfl, rfl, hcopy, hinv, rfl⟩

theorem count (h : RawBuffer c n e q s) : s.regs.count = q.length := by rw [← h.holds, length_queue]

theorem esize_le (h : RawBuffer c n e q s) : e ≤ c.emax := by
  obtain ⟨⟨-, hlt, -⟩, -⟩ := h.inv
  rw [h.cfg] at hlt
  exact h.esize ▸ esize_le_emax h.bus hlt

theorem blockFits (h : RawBuffer c n e q s) : BlockFits s := by
  rw [BlockFits, h.cap, h.esize, h.cfg]
  exact h.fits

/-- A command that leaves the shape of the buffer leaves it with the queue it leaves. -/
theorem of_planAt (h : RawBuffer c n e q s) (i : Instr) (hcap : (planAt i s).regs.cap = s.regs.cap)
    (hesize : (planAt i s).regs.esize = s.regs.esize) (hcopy : (planAt i s).regs.copyEn = s.regs.copyEn) :
    RawBuffer c n e (queue (carryOut (planAt i s) s)) (carryOut (planAt i s) s) :=
  ⟨h.bus, h.fits, (carryOut_cfg _ s).trans h.cfg, hcap.trans h.cap, hesize.trans h.esize, hcopy.trans h.copyEn,
    (carryOut_cfg _ s).symm ▸ Regs.inv_planOf h.inv _ i, rfl⟩

theorem not_full (h : RawBuffer c n e q s) (hroom : q.length < n) : full s.regs = false :=
  full_eq_false.2 (by rw [h.count, h.cap]; omega)

theorem not_empty {x : List Byte} (h : RawBuffer c n e (x :: q) s) : empty s.regs = false :=
  empty_eq_false.2 (by rw [h.count]; exact Nat.succ_ne_zero _)

/-- A storing ENQ adds the lanes of its element. -/
theorem enq (h : RawBuffer c n e q s) (hroom : q.length < n) {w : List Byte} (hw : w.length = c.emax) :
    RawBuffer c n e (q ++ [w.take e]) (carryOut (planAt (.enq true w) s) s) := by
  have hf := h.not_full hroom
  have hregs := regs_planAt_enq hf w
  have hle : s.regs.esize ≤ w.length := by rw [h.esize, hw]; exact h.esize_le
  have hqueue := queue_carryOut_enq h.inv h.blockFits hf w
  rw [storedBytes_eq hle, h.copyEn, h.esize, h.holds] at hqueue
  exact hqueue ▸ h.of_planAt (.enq true w) (by simp [hregs]) (by simp [hregs]) (by simp [hregs])

section
variable {x : List Byte} (h : RawBuffer c n e (x :: q) s)
include h

theorem deqSlot_cons (p : Bool) : x :: q = deqSlot s :: queue (carryOut (planAt (.deq p) s) s) :=
  h.holds.symm.trans (queue_eq_deqSlot_cons h.inv h.blockFits h.not_empty p)

/-- A removing DEQ drops the oldest element. -/
theorem deq (p : Bool) : RawBuffer c n e q (carryOut (planAt (.deq p) s) s) := by
  have hregs := regs_planAt_deq h.not_empty p
  obtain ⟨-, hq⟩ := List.cons.inj (h.deqSlot_cons p)
  exact hq ▸ h.of_planAt (.deq p) (by simp [hregs]) (by simp [hregs]) (by simp [hregs])

/-- A removing DEQ with P = 1 shows the oldest element in the lanes of RDATA. -/
theorem rdata_deq : (carryOut (planAt (.deq true) s) s).regs.rdata.take e = x := by
  obtain ⟨hx, -⟩ := List.cons.inj (h.deqSlot_cons true)
  have hcopied : copiedOut s.cfg s.regs (deqSlot s) = x := by simp [copiedOut, h.copyEn, hx]
  have hlen : x.length = e := by rw [hx, length_deqSlot, h.esize]
  rw [carryOut_regs, regs_planAt_deq h.not_empty,
    rdata_deqRegs_present h.inv (h.cfg ▸ h.bus) (length_deqSlot s), hcopied, List.take_left' hlen]

end

/-- A run of ENQs with room for all adds their elements in order (R99). -/
theorem runCommands_enqs (h : RawBuffer c n e q s) {elems : List (List Byte)} (hroom : q.length + elems.length ≤ n)
    (hw : ∀ w ∈ elems, w.length = c.emax) :
    ∃ t, runCommands (elems.map (.enq true)) s = .next t ∧ RawBuffer c n e (q ++ elems.map (List.take e)) t := by
  induction elems generalizing q s with
  | nil => exact ⟨s, rfl, by simpa using h⟩
  | cons w ws ih =>
    rw [List.length_cons] at hroom
    have hstep := h.enq (by omega) (hw w List.mem_cons_self)
    obtain ⟨t, hrun, ht⟩ := ih hstep (by simp; omega) fun v hv => hw v (List.mem_cons_of_mem w hv)
    exact ⟨t, (runCommands_cons _ _ s).trans hrun, by simpa using ht⟩

/-- The last of k + 1 DEQs shows element k of the queue (R99). -/
theorem runCommands_deqs (h : RawBuffer c n e q s) {k : Nat} (hk : k < q.length) :
    ∃ u, runCommands (List.replicate (k + 1) (.deq true)) s = .next u ∧ u.rsp = some ⟨.ok, false⟩ ∧
      u.regs.rdata.take e = q[k] := by
  induction k generalizing q s with
  | zero =>
    obtain ⟨x, xs, rfl⟩ := List.exists_cons_of_length_pos hk
    exact ⟨_, runCommands_cons _ _ s, congrArg some (rsp_planAt_deq h.not_empty true), h.rdata_deq⟩
  | succ k ih =>
    obtain ⟨x, xs, rfl⟩ := List.exists_cons_of_length_pos (Nat.zero_lt_of_lt hk)
    obtain ⟨u, hrun, hu⟩ := ih (h.deq true) (Nat.lt_of_succ_lt_succ hk)
    exact ⟨u, (runCommands_cons _ _ s).trans hrun, hu⟩

end RawBuffer

/-- Settles O49: the ENQs fill the queue with the elements in order, and the DEQs show it from its front. -/
theorem dequeuesReturnTheEnqueuedSequence : Obligations.DequeuesReturnTheEnqueuedSequence := by
  intro s elems hc hinv hfit hempty hcopy hlen hw
  have hnil : queue s = [] := List.eq_nil_of_length_eq_zero (by rw [length_queue, hempty])
  have hs := hnil ▸ RawBuffer.of_state hc hinv hfit hcopy
  obtain ⟨t, hrun, ht⟩ := hs.runCommands_enqs (by simpa using hlen) hw
  rw [List.nil_append] at ht
  refine ⟨t, hrun, by simpa using ht.count, fun k hk => ?_⟩
  obtain ⟨u, hrunu, hrsp, hrdata⟩ := ht.runCommands_deqs (k := k) (by simpa using hk)
  exact ⟨u, hrunu, hrsp, by simpa using hrdata⟩

/-- Settles O51: the DEQ leaves one free slot, and the ENQ fills it with the newest element. -/
theorem dequeueThenEnqueueKeepsAFullBufferFull : Obligations.DequeueThenEnqueueKeepsAFullBufferFull := by
  intro s p w hc hinv hfit hcap hcount hcopy hw
  have hs := RawBuffer.of_state hc hinv hfit hcopy
  have hlen : (queue s).length = s.regs.cap := by rw [length_queue, hcount]
  obtain ⟨x, q, hq⟩ := List.exists_cons_of_length_pos (hlen ▸ hcap)
  rw [hq] at hs hlen
  rw [List.length_cons] at hlen
  have hd := hs.deq p
  have ht := hd.enq (w := w) (by omega) hw
  refine ⟨_, (runCommands_cons _ _ s).trans (runCommands_cons _ _ _),
    congrArg some (rsp_planAt_enq (hd.not_full (by omega)) w), ?_, ?_⟩
  · rw [exec_qfull, full_eq_true.2 (by rw [ht.count, ht.cap]; simpa using hlen)]
  · rw [ht.holds, hq, List.tail_cons]

end Sys2Proof.Machine

/-! PROOFS of the family 42_hooks.md: SETCOPY and SETPRINT (R101, R102), the life of the hooks (R106), the copy-unit port
(R104), what COPY_EN and PRINT_EN cannot change (R102, R104), and an element's round trip through the copy unit (R107). -/

namespace Sys2Proof.Machine

/-! ### The registers of the hooks -/

/-- Settles O29: SETCOPY's plan answers, and writes COPY_EN. -/
theorem setcopyWritesCopyEn : Obligations.SetcopyWritesCopyEn := fun p s =>
  (exec_eq_carryOut (.setcopy p) s).trans
    (congrArg _ (carryOut_answerPlan { s.regs with copyEn := p } .ok false s))

/-- Settles O30: SETPRINT's plan answers, and writes PRINT_EN. -/
theorem setprintWritesPrintEn : Obligations.SetprintWritesPrintEn := fun p s =>
  (exec_eq_carryOut (.setprint p) s).trans
    (congrArg _ (carryOut_answerPlan { s.regs with printEn := p } .ok false s))

/-- Settles O42: of the commands that write registers, INIT clears both hooks, and only SETCOPY and SETPRINT write one. -/
theorem hooksLiveFromTheirRegistrationToInit : Obligations.HooksLiveFromTheirRegistrationToInit := by
  intro i s t h
  rw [exec_next_iff] at h
  subst h
  rw [carryOut_regs]
  refine ⟨?_, ?_, ?_⟩
  · rintro base cap esize rfl
    exact ⟨rfl, rfl⟩
  · rintro base cap esize rfl
    exact ⟨rfl, rfl⟩
  · rw [planAt]
    rcases regs_planOf_cases s.cfg s.regs (slotSeen i s) i with
      h | ⟨base, cap, esize, -, h⟩ | ⟨p, rfl, h⟩ | ⟨p, rfl, h⟩ | ⟨w, -, -, h⟩ | ⟨p, -, -, h⟩ <;> rw [h]
    · simp +contextual
    · simp [initRegs]
    · simp +contextual
    · simp +contextual
    · simp +contextual [enqRegs]
    · simp +contextual [deqRegs]

/-! ### The copy-unit port -/

/-- A storing ENQ uses the copy unit while COPY_EN = 1, and stores what the unit drives (R88, R104). -/
theorem copyUse_planAt_enq {s : State} (hf : full s.regs = false) (w : List Byte) :
    (planAt (.enq true w) s).copyUse =
      if s.regs.copyEn then
        some ⟨s.regs.esize, enqSlot s, lanes w s.regs.esize, storedBytes s.cfg s.regs w (enqSlot s)⟩
      else none :=
  congrArg Plan.copyUse (planEnq_stores hf w (enqSlot s))

/-- A command that neither stores nor removes leaves the copy unit alone (R104). -/
theorem copyUse_planAt_eq_none {i : Instr} {s : State} (hs : storing i s.regs = false)
    (hr : removing i s.regs = false) : (planAt i s).copyUse = none := by
  rcases planAt_cases i s with ⟨code, flag, h, -, -⟩ | ⟨base, cap, esize, rfl⟩ | ⟨p, rfl⟩ | ⟨p, rfl⟩ | ⟨w, rfl, hf⟩ |
    ⟨p, rfl, he⟩
  · rw [h]
    rfl
  · rfl
  · rfl
  · rfl
  · simp [storing, hf] at hs
  · simp [removing, he] at hr

/-- Settles O35: by the paths of ENQ and DEQ; no other command uses the copy unit. -/
theorem copyUnitIsUsedOnlyByTransfers : Obligations.CopyUnitIsUsedOnlyByTransfers := by
  intro i s t h r use
  rw [exec_next_iff] at h
  subst h
  rw [carryOut_copyUse]
  cases i with
  | enq p w =>
    cases p
    · exact copyUse_planAt_eq_none rfl rfl
    · cases hf : full s.regs
      · rw [copyUse_planAt_enq hf]
        cases hc : s.regs.copyEn <;> simp [r, use, storedBytes, hc]
      · rw [copyUse_planAt_eq_none (by simp [storing, hf]) rfl]
        simp [r]
  | deq p =>
    cases he : empty s.regs
    · rw [copyUse_planAt_deq he]
      cases p
      · rfl
      · cases hc : s.regs.copyEn <;> simp [r, use, copiedOut, hc]
    · rw [copyUse_planAt_eq_none rfl (by simp [removing, he])]
      cases p <;> simp [r]
  | init p base cap esize => exact copyUse_planAt_eq_none rfl rfl
  | qfull => exact copyUse_planAt_eq_none rfl rfl
  | qempty => exact copyUse_planAt_eq_none rfl rfl
  | setcopy p => exact copyUse_planAt_eq_none rfl rfl
  | setprint p => exact copyUse_planAt_eq_none rfl rfl
  | rsv => exact copyUse_planAt_eq_none rfl rfl

/-! ### What the hooks cannot change -/

/-- The machine with COPY_EN and PRINT_EN at these levels. -/
def State.withHooks (s : State) (copyEn printEn : Bool) : State :=
  { s with regs := { s.regs with copyEn := copyEn, printEn := printEn } }

/-- The storage memory a command leaves depends on the hooks only through the element it stores: the reads they add
change nothing (R48, R102). -/
theorem mem_carryOut_withHooks {i : Instr} {s : State} {x y : Bool} (h : storedBy i (s.withHooks x y) = storedBy i s) :
    (carryOut (planAt i (s.withHooks x y)) (s.withHooks x y)).mem = (carryOut (planAt i s) s).mem := by
  cases hs : storing i s.regs
  · cases hr : removing i s.regs
    · have hs' : storing i (s.withHooks x y).regs = false := hs
      have hr' : removing i (s.withHooks x y).regs = false := hr
      rw [carryOut_mem, carryOut_mem, txns_planAt_eq_nil hs hr, txns_planAt_eq_nil hs' hr']
      rfl
    · obtain ⟨p, rfl, he⟩ := removing_eq_true_iff.1 hr
      have he' : empty (s.withHooks x y).regs = false := he
      rw [mem_carryOut_deq he, mem_carryOut_deq he']
      rfl
  · obtain ⟨w, rfl, hf⟩ := storing_eq_true_iff.1 hs
    have hf' : full (s.withHooks x y).regs = false := hf
    rw [mem_carryOut_enq hf, mem_carryOut_enq hf']
    exact congrArg (memWrite s.cfg s.draws s.mem (slotAddr s.cfg s.regs s.regs.tail)) h

/-- A command's plan holds PRINT_EN in its transactions, its trace event and PRINT_EN itself only (R102). -/
theorem planAt_withPrintEn (i : Instr) (s : State) (b : Bool) :
    planAt i (s.withHooks s.regs.copyEn b) =
      { planAt i s with
        regs := { (planAt i s).regs with printEn := (planAt i (s.withHooks s.regs.copyEn b)).regs.printEn }
        txns := (planAt i (s.withHooks s.regs.copyEn b)).txns
        trace := (planAt i (s.withHooks s.regs.copyEn b)).trace } := by
  cases i with
  | init p base cap esize => cases p <;> rfl
  | enq p w =>
    cases p
    · rfl
    · cases hf : full s.regs
      · have hf' : full (s.withHooks s.regs.copyEn b).regs = false := hf
        simp only [planAt, planOf, planEnq_stores hf, planEnq_stores hf']
        rfl
      · have hf' : full (s.withHooks s.regs.copyEn b).regs = true := hf
        simp only [planAt, planOf, planEnq_full hf, planEnq_full hf']
        rfl
  | deq p =>
    cases he : empty s.regs
    · have he' : empty (s.withHooks s.regs.copyEn b).regs = false := he
      simp only [planAt, planOf, planDeq_removes he, planDeq_removes he']
      rfl
    · have he' : empty (s.withHooks s.regs.copyEn b).regs = true := he
      simp only [planAt, planOf, planDeq_empty he, planDeq_empty he']
      rfl
  | _ => rfl

/-- Settles O37: both plans differ in their transactions, their trace event and PRINT_EN only, and the element stored
does not depend on PRINT_EN. -/
theorem printEnShowsOnlyOnThePorts : Obligations.PrintEnShowsOnlyOnThePorts := by
  intro i s
  have hon := planAt_withPrintEn i s true
  have hoff := planAt_withPrintEn i s false
  have hstored (b : Bool) : storedBy i (s.withHooks s.regs.copyEn b) = storedBy i s := by cases i <;> rfl
  refine ⟨_, _, exec_eq_carryOut i (s.withHooks s.regs.copyEn true),
    exec_eq_carryOut i (s.withHooks s.regs.copyEn false), ?_, ?_, ?_, ?_⟩
  · rw [mem_carryOut_withHooks (hstored true), mem_carryOut_withHooks (hstored false)]
  · rw [carryOut_rsp, carryOut_rsp, hon, hoff]
  · rw [carryOut_copyUse, carryOut_copyUse, hon, hoff]
  · rw [carryOut_regs, carryOut_regs, hon, hoff]

section
variable {c : Params} (hc : c.copyTable = [])
include hc

/-- With no copy unit, ENQ stores WDATA's lanes, whatever COPY_EN is (R104). -/
theorem storedBytes_of_no_unit (r : Regs) (w old : List Byte) : storedBytes c r w old = lanes w r.esize := by
  rw [storedBytes, copyFn_of_no_unit hc, lanes_of_length (length_lanes w r.esize), ite_self]

/-- With no copy unit, DEQ copies the slot's bytes out, whatever COPY_EN is (R104). -/
theorem copiedOut_of_no_unit {r : Regs} {slot : List Byte} (h : slot.length = r.esize) :
    copiedOut c r slot = slot := by
  rw [copiedOut, copyFn_of_no_unit hc, lanes_of_length h, ite_self]

end

/-- With no copy unit, a command's plan holds COPY_EN in its transactions, its use of the copy unit and COPY_EN itself
only (R104). -/
theorem planAt_withCopyEn (i : Instr) {s : State} (hc : s.cfg.copyTable = []) (b : Bool) :
    planAt i (s.withHooks b s.regs.printEn) =
      { planAt i s with
        regs := { (planAt i s).regs with copyEn := (planAt i (s.withHooks b s.regs.printEn)).regs.copyEn }
        txns := (planAt i (s.withHooks b s.regs.printEn)).txns
        copyUse := (planAt i (s.withHooks b s.regs.printEn)).copyUse } := by
  have hc' : (s.withHooks b s.regs.printEn).cfg.copyTable = [] := hc
  cases i with
  | init p base cap esize => cases p <;> rfl
  | enq p w =>
    cases p
    · rfl
    · cases hf : full s.regs
      · have hf' : full (s.withHooks b s.regs.printEn).regs = false := hf
        simp only [planAt, planOf, planEnq_stores hf, planEnq_stores hf', storedBytes_of_no_unit hc,
          storedBytes_of_no_unit hc']
        rfl
      · have hf' : full (s.withHooks b s.regs.printEn).regs = true := hf
        simp only [planAt, planOf, planEnq_full hf, planEnq_full hf']
        rfl
  | deq p =>
    cases he : empty s.regs
    · have he' : empty (s.withHooks b s.regs.printEn).regs = false := he
      simp only [planAt, planOf, slotSeen, planDeq_removes he, planDeq_removes he', deqRegs,
        copiedOut_of_no_unit hc (length_deqSlot s),
        copiedOut_of_no_unit hc' (length_deqSlot (s.withHooks b s.regs.printEn))]
      rfl
    · have he' : empty (s.withHooks b s.regs.printEn).regs = true := he
      simp only [planAt, planOf, planDeq_empty he, planDeq_empty he']
      rfl
  | _ => rfl

/-- Settles O36: both plans differ in their transactions, their use of the copy unit and COPY_EN only, and the element
stored is WDATA's in both. -/
theorem withoutACopyUnitCopyEnIsARawCopy : Obligations.WithoutACopyUnitCopyEnIsARawCopy := by
  intro i s hc
  have hon := planAt_withCopyEn i hc true
  have hoff := planAt_withCopyEn i hc false
  have hstored (b : Bool) : storedBy i (s.withHooks b s.regs.printEn) = storedBy i s := by
    cases i with
    | enq p w =>
      have hc' : (s.withHooks b s.regs.printEn).cfg.copyTable = [] := hc
      simp only [storedBy, storedBytes_of_no_unit hc, storedBytes_of_no_unit hc']
      rfl
    | _ => rfl
  refine ⟨_, _, exec_eq_carryOut i (s.withHooks true s.regs.printEn),
    exec_eq_carryOut i (s.withHooks false s.regs.printEn), ?_, ?_, ?_, ?_⟩
  · rw [mem_carryOut_withHooks (hstored true), mem_carryOut_withHooks (hstored false)]
  · rw [carryOut_rsp, carryOut_rsp, hon, hoff]
  · rw [carryOut_trace, carryOut_trace, hon, hoff]
  · rw [carryOut_regs, carryOut_regs, hon, hoff]

/-! ### The round trip through the copy unit -/

@[simp] theorem copiedOut_enqRegs (c : Params) (r : Regs) (slot : List Byte) :
    copiedOut c (enqRegs c r) slot = copiedOut c r slot := rfl

/-- The bytes a removing DEQ with P = 1 copies out, on an RDATA that carries the element (R93). -/
theorem copiedOut_eq {r : Regs} (h : r.esize ≤ r.rdata.length) (c : Params) (slot : List Byte) :
    copiedOut c r slot = if r.copyEn then copyFn c r.esize (r.rdata.take r.esize) slot else slot := by
  rw [copiedOut, lanes_eq_take h]

section
variable {s : State} (hinv : s.regs.Inv s.cfg)
include hinv

/-- Lanes 0 to ESIZE − 1 of RDATA receive what a removing DEQ with P = 1 copies out (R93). -/
theorem take_rdata_carryOut_deq (hc : s.cfg.BusOk) (he : empty s.regs = false) :
    (carryOut (planAt (.deq true) s) s).regs.rdata.take s.regs.esize = copiedOut s.cfg s.regs (deqSlot s) := by
  rw [carryOut_regs, regs_planAt_deq he, rdata_deqRegs_present hinv hc (length_deqSlot s),
    List.take_left' (length_copiedOut s.cfg s.regs (length_deqSlot s))]

/-- A DEQ with P = 1 after a storing ENQ into an empty buffer copies out what the ENQ stored: it is the only element of
the queue (R88, R93, R99). -/
theorem take_rdata_deq_after_enq (hc : s.cfg.BusOk) (hfit : BlockFits s) (hempty : s.regs.count = 0)
    (hf : full s.regs = false) (w : List Byte) {t : State} (ht : t = carryOut (planAt (.enq true w) s) s) :
    (carryOut (planAt (.deq true) t) t).regs.rdata.take s.regs.esize =
      copiedOut s.cfg s.regs (storedBytes s.cfg s.regs w (enqSlot s)) := by
  have hregs : t.regs = enqRegs s.cfg s.regs := by rw [ht, carryOut_regs, regs_planAt_enq hf]
  have hcfg : t.cfg = s.cfg := by rw [ht, carryOut_cfg]
  have hinv' : t.regs.Inv t.cfg := by
    rw [hregs, hcfg]
    exact Regs.inv_enqRegs hinv hf
  have hfit' : BlockFits t := by
    rw [BlockFits, hregs, hcfg]
    exact hfit
  have hnil : queue s = [] := List.eq_nil_of_length_eq_zero (by rw [length_queue, hempty])
  have hqueue : queue t = [storedBytes s.cfg s.regs w (enqSlot s)] := by
    rw [ht, queue_carryOut_enq hinv hfit hf w, hnil, List.nil_append]
  have he : empty t.regs = false := empty_eq_false.2 (by simp [← length_queue, hqueue])
  obtain ⟨hslot, -⟩ := List.cons.inj (hqueue.symm.trans (queue_eq_deqSlot_cons hinv' hfit' he true))
  have hout := take_rdata_carryOut_deq hinv' (hcfg ▸ hc) he
  rwa [← hslot, hregs, hcfg, enqRegs_esize, copiedOut_enqRegs] at hout

end

/-- Two passes through a copy that ignores its old bytes and is idempotent are one, whatever old bytes each is given
(R107). -/
theorem copy_copy_of_ignores_old {n : Nat} {f : List Byte → List Byte → List Byte}
    (hlen : ∀ old x, (f old x).length = n)
    (hold : ∀ old old' x : List Byte, old.length = n → old'.length = n → x.length = n → f old x = f old' x)
    (hidem : ∀ old x : List Byte, old.length = n → x.length = n → f old (f old x) = f old x)
    {a b c x : List Byte} (ha : a.length = n) (hb : b.length = n) (hc : c.length = n) (hx : x.length = n) :
    f a (f b x) = f c x :=
  calc f a (f b x) = f b (f b x) := hold a b _ ha hb (hlen b x)
    _ = f b x := hidem b x hb hx
    _ = f c x := hold b c x hb hc hx

/-- Settles O52: the DEQ copies out what the ENQ stored, and each passes its bytes through the copy unit. -/
theorem roundTripThroughTheCopyUnit : Obligations.RoundTripThroughTheCopyUnit := by
  intro s w old0 ⟨_, hbus, _⟩ hinv hfit hempty hcap hcopy hw n f src
  have ⟨⟨_, hesize, _, _, _, _, hrdata⟩, _⟩ := hinv
  have hn : s.regs.esize ≤ s.cfg.emax := esize_le_emax hbus hesize
  have hf : full s.regs = false := full_eq_false.2 (by omega)
  have htrip := take_rdata_deq_after_enq hinv hbus hfit hempty hf w rfl
  rw [copiedOut_eq (hrdata ▸ hn), storedBytes_eq (hw ▸ hn), hcopy, if_pos rfl, if_pos rfl] at htrip
  refine ⟨_, _, exec_eq_carryOut _ s, exec_eq_carryOut _ _, htrip, fun hold hidem hold0 => htrip.trans ?_⟩
  exact copy_copy_of_ignores_old (length_copyFn s.cfg n) hold hidem (List.length_take_of_le (hrdata ▸ hn))
    (length_enqSlot s) hold0 (List.length_take_of_le (hw ▸ hn))

end Sys2Proof.Machine

/-! PROOFS of the family 60_exceptions.md: the result codes and what a failing command leaves (R112 to R114), and the one
stop of the machine, a storage memory that never answers (R116, R139). -/

namespace Sys2Proof.Machine

/-! ### The codes of the responses -/

/-- Settles O39: by the values of `ResultCode.bits`. -/
theorem resultCodesAreNumberedZeroToThree : Obligations.ResultCodesAreNumberedZeroToThree := ⟨rfl, rfl, rfl, rfl⟩

/-- ENQ answers OK, or FULL when it finds the buffer full (R85). -/
theorem rsp_planAt_enq_cases (p : Bool) (w : List Byte) (s : State) :
    (planAt (.enq p w) s).rsp = ⟨.ok, false⟩ ∨ (planAt (.enq p w) s).rsp = ⟨.full, false⟩ := by
  cases p
  · exact .inl rfl
  · cases hf : full s.regs
    · exact .inl (rsp_planAt_enq hf w)
    · exact .inr ((rsp_enq_eq_full_iff w s).2 hf)

/-- DEQ answers OK, or EMPTY when it finds the buffer empty (R91). -/
theorem rsp_planAt_deq_cases (p : Bool) (s : State) :
    (planAt (.deq p) s).rsp = ⟨.ok, false⟩ ∨ (planAt (.deq p) s).rsp = ⟨.empty, false⟩ := by
  cases he : empty s.regs
  · exact .inl (rsp_planAt_deq he p)
  · exact .inr ((rsp_deq_eq_empty_iff p s).2 he)

/-- Settles O38: a command's response is its plan's, which only ENQ and DEQ choose by the state. -/
theorem eachCommandRespondsWithItsCodes : Obligations.EachCommandRespondsWithItsCodes := by
  intro i s t r hnext hrsp
  obtain rfl := exec_responds_iff.1 ⟨t, hnext, hrsp⟩
  cases i with
  | init p base cap esize =>
    cases p
    · exact ⟨.inr rfl, rfl⟩
    · exact ⟨.inl rfl, rfl⟩
  | qfull => rfl
  | qempty => rfl
  | enq p w => rcases rsp_planAt_enq_cases p w s with h | h <;> simp [h]
  | deq p => rcases rsp_planAt_deq_cases p s with h | h <;> simp [h]
  | setcopy p => exact ⟨rfl, rfl⟩
  | setprint p => exact ⟨rfl, rfl⟩
  | rsv => exact ⟨rfl, rfl⟩

/-! ### Failing commands -/

/-- A failing command's flag is 0: the queries, which alone set it, do not fail (R113). -/
theorem flag_eq_false_of_failure {i : Instr} {s : State} (h : (planAt i s).rsp.code ≠ .ok) :
    (planAt i s).rsp.flag = false := by
  have hrow := eachCommandRespondsWithItsCodes i s _ _ (exec_eq_carryOut i s) (carryOut_rsp _ s)
  cases i with
  | qfull => exact absurd hrow h
  | qempty => exact absurd hrow h
  | _ => exact hrow.2

/-- A command that fails only answers (R111, R114): the paths that do more respond OK. -/
theorem planAt_of_failure {i : Instr} {s : State} (h : (planAt i s).rsp.code ≠ .ok) :
    planAt i s = answerPlan s.regs (planAt i s).rsp.code false := by
  rcases planAt_cases i s with ⟨code, flag, hplan, -, -⟩ | ⟨base, cap, esize, rfl⟩ | ⟨p, rfl⟩ | ⟨p, rfl⟩ |
    ⟨w, rfl, hf⟩ | ⟨p, rfl, he⟩
  · have hflag := flag_eq_false_of_failure h
    rw [hplan] at hflag ⊢
    exact congrArg (answerPlan s.regs code) hflag
  · exact absurd rfl h
  · exact absurd rfl h
  · exact absurd rfl h
  · exact absurd (congrArg Response.code (rsp_planAt_enq hf w)) h
  · exact absurd (congrArg Response.code (rsp_planAt_deq he p)) h

/-- Settles O40: a failing command's plan, and that of an ENQ with P = 0, is an answer. -/
theorem failuresAreAtomic : Obligations.FailuresAreAtomic := by
  refine ⟨fun i s t r hnext hrsp hfail => ?_, fun w s => exec_of_answers rfl⟩
  obtain rfl := exec_responds_iff.1 ⟨t, hnext, hrsp⟩
  exact Host.Outcome.next.inj (hnext.symm.trans (exec_of_answers (planAt_of_failure hfail)))

/-! ### The hang -/

section
variable {s : State} {f : Fault}

/-- The storage memory leaves a request waiting: it does not accept it, or does not answer the read (R43). -/
theorem served_eq_false_iff {x : Txn} : served s x = false ↔ s.mReady = false ∨ (x.we = false ∧ s.mRvalid = false) := by
  rw [served, Bool.and_eq_false_iff, Bool.or_eq_false_iff]

/-- The next transaction waits: its bytes do not come, or the storage memory leaves its request waiting (R43). -/
theorem performs_eq_false_iff {b : Busy} {x : Txn} :
    performs b s x = false ↔
      (b.awaiting = true ∧ s.mRvalid = false) ∨ (b.awaiting = false ∧ served s x = false) := by
  cases ha : b.awaiting <;> simp [performs, ha]

/-- A command hangs on its next transaction or on a later one, and only with one left (U14). -/
theorem hangs_iff {b : Busy} :
    hangs b s = true ↔
      ∃ x xs, pending b s = x :: xs ∧ (performs b s x = false ∨ ∃ y ∈ xs, served s y = false) := by
  unfold hangs
  cases pending b s with
  | nil => simp
  | cons x xs =>
    have hall : xs.all (served s) = false ↔ ∃ y ∈ xs, served s y = false := by simp
    simp only [Bool.not_eq_true', Bool.and_eq_false_iff, hall, List.cons.injEq, and_assoc, exists_and_left,
      exists_eq_left']

theorem finishBusy_eq_fault_iff {b : Busy} : finishBusy b s = .fault f ↔ hangs b s = true := by
  cases f
  rcases finishBusy_cases b s with ⟨hh, h⟩ | ⟨hh, h⟩ <;> simp [hh, h]

theorem runWord_ne_fault (w : Nat) : runWord w s ≠ .fault f := by
  rcases runWord_cases w s with ⟨i, -, -, h⟩ | ⟨i, -, -, h⟩ | ⟨e, -, h⟩ <;> simp [h]

/-- The controller's own step stops with a fault only out of reset, on a command in progress that hangs. -/
theorem controller_eq_fault_iff :
    controller s = .fault f ↔ s.rst = false ∧ ∃ b, s.phase = .busy b ∧ hangs b s = true := by
  rcases controller_cases s with ⟨hrst, h⟩ | ⟨b, hrst, hb, h⟩ | ⟨-, hidle, -, h⟩ | ⟨w, ws, -, hidle, -, h⟩ <;> rw [h]
  · simp [hrst]
  · simp [hrst, hb, finishBusy_eq_fault_iff]
  · simp [hidle]
  · simp [hidle, runWord_ne_fault]

theorem risingEdge_ne_fault : risingEdge s ≠ .fault f := by
  rcases risingEdge_cases s with ⟨w, ws, i, -, -, -, -, h⟩ | ⟨w, ws, e, -, -, -, -, h⟩ | ⟨-, h⟩ <;> simp [h]

theorem setCmdValid_ne_fault (level : Bool) : setCmdValid level s ≠ .fault f := by
  cases level <;> cases hv : s.cmdValid <;> simp [setCmdValid, hv]

theorem changeNext_ne_fault (w : Nat) : changeNext w s ≠ .fault f := by
  cases hheld : s.cmdValid && !cmdReady s <;> simp [changeNext, hheld]

/-- No event of the platform, of another agent or of the host stops the machine with a fault (R116). -/
theorem environment_ne_fault (e : EnvEvent) : environment e s ≠ .fault f := by
  cases e with
  | rst level => cases level <;> simp [environment]
  | cmdValid level => exact setCmdValid_ne_fault level
  | edge => exact risingEdge_ne_fault
  | changeCommand w => exact changeNext_ne_fault w
  | _ => simp [environment]

/-- A step is a fault exactly when it is the controller's own step on a command that hangs. -/
theorem step_eq_fault_iff :
    step s = .fault f ↔ s.env = [] ∧ s.rst = false ∧ ∃ b, s.phase = .busy b ∧ hangs b s = true := by
  cases he : s.env with
  | nil => simp [step_controller he, controller_eq_fault_iff]
  | cons e es => simp [step_event he, environment_ne_fault]

end

/-- Settles O16: a step is a fault on a hang, which is a transaction left that is never performed. -/
theorem onlyAHangStopsTheMachine : Obligations.OnlyAHangStopsTheMachine := by
  intro s f
  rw [step_eq_fault_iff]
  simp only [hangs_iff, performs_eq_false_iff, served_eq_false_iff, or_assoc, exists_and_left]

end Sys2Proof.Machine

/-! PROOFS of the family 70_reset_and_hazards.md: the reset edge (R131), the state it leaves (R132), a command that reset
abandons (R133), the status outputs of a command in progress (R137), and one that the storage memory leaves waiting
(R139). -/

namespace Sys2Proof.Machine

/-! ### The reset edge -/

/-- Scrambling a slot depends neither on what stood on the ports nor on what the platform does next. -/
theorem scrambleSlot_event (b : Busy) (s : State) (es : List EnvEvent) :
    scrambleSlot b { quiet s with env := es } = { quiet (scrambleSlot b s) with env := es } := by
  rw [scrambleSlot, scrambleSlot, busyPlan_congr b (s := { quiet s with env := es }) (t := s) rfl rfl]
  split <;> rfl

/-- What reset abandons depends neither on what stood on the ports nor on what the platform does next. -/
theorem abandon_event (s : State) (es : List EnvEvent) :
    abandon { quiet s with env := es } = { quiet (abandon s) with env := es } := by
  cases hp : s.phase with
  | idle => rw [abandon_idle s hp, abandon_idle { quiet s with env := es } hp]
  | busy b =>
    rw [abandon_busy hp, abandon_busy (s := { quiet s with env := es }) hp, scrambleSlot_event,
      pending_congr b (s := { quiet s with env := es }) (t := s) rfl rfl]
    split <;> rfl

/-- A reset edge depends neither on what stood on the ports nor on what the platform does next (R131). -/
theorem resetEdge_event (s : State) (es : List EnvEvent) :
    resetEdge { quiet s with env := es } = { resetEdge s with env := es } := by
  rw [resetEdge, abandon_event]
  rfl

/-- While rst is 1, an event edge is a reset edge, whatever the host presents (R60, R131). -/
theorem risingEdge_reset {s : State} (h : s.rst = true) : risingEdge s = .next (resetEdge s) := by
  have hready : cmdReady s = false := by simp [← Bool.not_eq_true, cmdReady_eq_true_iff, h]
  rw [risingEdge_of_not_taken (by rw [hready, Bool.and_false]), clockEdge, if_pos h]

/-- In each of the three ways in which a rising edge with rst = 1 comes, the step is a reset edge, and rst is 1 after it
(R131). -/
theorem step_reset {s : State} (h : (∃ es, s.env = .rst true :: es) ∨ (s.rst = true ∧ ∃ es, s.env = .edge :: es) ∨
    (s.rst = true ∧ s.env = [])) : step s = .next { resetEdge s with env := s.env.tail, rst := true } := by
  rcases h with ⟨es, he⟩ | ⟨hr, es, he⟩ | ⟨hr, he⟩
  · rw [step_event he, environment, resetEdge_event, he]
    rfl
  · rw [step_event he, environment, risingEdge_reset (s := { quiet s with env := es }) hr, resetEdge_event, he, ← hr,
      ← resetEdge_rst s]
    rfl
  · have henv : s.env.tail = (resetEdge s).env := by simp [he]
    rw [step_controller he, controller, if_pos hr, henv, ← hr, ← resetEdge_rst s]

/-- Settles O53: each such step is a reset edge, which leaves an idle controller's storage memory. -/
theorem resetEdgeResetsEveryRegister : Obligations.ResetEdgeResetsEveryRegister := fun s h =>
  ⟨_, step_reset h, rfl, rfl, rfl, rfl, rfl, rfl, rfl, resetEdge_cmds s, resetEdge_cmdValid s, rfl,
    fun hidle => (resetEdge_mem s).trans (congrArg State.mem (abandon_idle s hidle))⟩

/-! ### A command that reset abandons -/

/-- With no race and no write on the port, reset finds the storage memory settled and leaves it (R133). -/
theorem abandon_of_no_write {s : State} {b : Busy} (hb : s.phase = .busy b) (hraced : b.raced = false)
    (hread : ∀ x ∈ (pending b s).head?, x.we = false) : abandon s = s := by
  have hwrite : (pending b s).head?.any Txn.we = false := by simpa [Option.any_eq_false] using hread
  rw [abandon_busy hb, hraced, hwrite]
  rfl

/-- A byte outside the slot of the abandoned command stays (U11). -/
theorem byteAt_abandon {s : State} {b : Busy} (hb : s.phase = .busy b) {y : Nat}
    (h : ∀ x ∈ (busyPlan b s).txns, ¬ InSlot s.cfg x.addr x.len y) : (abandon s).byteAt y = s.byteAt y := by
  rw [abandon_busy hb]
  split
  · exact byteAt_scrambleSlot b s h
  · rfl

/-- Settles O55: rst rises at a reset edge, and the abandoned command leaves every byte but those of a slot it may have
been writing or that another agent raced for. -/
theorem resetDuringACommandAbandonsIt : Obligations.ResetDuringACommandAbandonsIt := fun s _ es he hb =>
  ⟨_, step_reset (.inl ⟨es, he⟩), rfl, rfl, rfl, rfl, resetEdge_cmds s,
    fun hraced hread => (resetEdge_mem s).trans (congrArg State.mem (abandon_of_no_write hb hraced hread)),
    fun _ hy => byteAt_abandon hb hy⟩

/-! ### The status outputs of a command in progress -/

/-- The status outputs are driven from the registers only (R32). -/
theorem statusOutputs_congr {s t : State} (h : s.regs = t.regs) : statusOutputs s = statusOutputs t := by
  rw [statusOutputs, statusOutputs, h]

theorem cmdReady_busy {s : State} {b : Busy} (hb : s.phase = .busy b) : cmdReady s = false := by rw [cmdReady, hb]

/-- With a transaction left, an edge leaves the command in progress (R137). -/
theorem busyEdge_stays_busy {s : State} {b : Busy} {x : Txn} {xs : List Txn} (hb : s.phase = .busy b)
    (hp : pending b s = x :: xs) : ∃ b', (busyEdge b s).phase = .busy b' := by
  rcases busyEdge_cases b s with ⟨_, -, -, -, h⟩ | ⟨-, -, -, -, -, -, -, h⟩ | ⟨-, -, -, -, -, h⟩ | ⟨hnil, -⟩
  · rw [h]
    exact ⟨_, rfl⟩
  · rw [h]
    exact ⟨_, rfl⟩
  · rw [h]
    exact ⟨b, hb⟩
  · rw [hp] at hnil
    cases hnil

/-- Settles O58: the edge is one of the command's, which changes no register and leaves the controller busy. -/
theorem statusOutputsHoldDuringACommand : Obligations.StatusOutputsHoldDuringACommand := by
  intro s b es he hrst hb hleft
  obtain ⟨x, xs, hp⟩ := List.exists_cons_of_ne_nil hleft
  let q : State := { quiet s with env := es }
  have hq : pending b q = x :: xs := hp
  obtain ⟨hregs, hrsp⟩ := busyEdge_keeps_regs_rsp hq
  obtain ⟨_, hbusy⟩ := busyEdge_stays_busy (s := q) hb hq
  exact ⟨busyEdge b q, step_edge_busy he hrst hb, statusOutputs_congr hregs, by rw [rspValid, hrsp]; rfl,
    cmdReady_busy hbusy⟩

/-! ### A command that the storage memory leaves waiting -/

/-- A command with a transaction that is not served at once is accepted in place of being run (R139). -/
theorem runWord_waits {w : Nat} {i : Instr} {s : State} (hd : decode s.cfg w = .ok i)
    (h : ∃ x ∈ (planAt i s).txns, served s x = false) : runWord w s = .next (accept i s) := by
  have hw : mustWait i s = true := by simpa [mustWait] using h
  simp [runWord, hd, hw]

/-- A command just accepted hangs on any of its transactions that is not served (U14). -/
theorem hangs_accept {i : Instr} {s : State} (h : ∃ x ∈ (planAt i s).txns, served s x = false) :
    hangs ⟨i, slotSeen i s, 0, false, false⟩ (accept i s) = true := by
  rw [hangs_iff, pending_congr _ (accept_cfg s i) (accept_regs s i), pending_accepted]
  obtain ⟨y, hy, hserved⟩ := h
  obtain ⟨x, xs, hp⟩ := List.exists_cons_of_ne_nil (List.ne_nil_of_mem hy)
  refine ⟨x, xs, hp, ?_⟩
  rw [hp] at hy
  rcases List.mem_cons.1 hy with rfl | hy
  · exact .inl hserved
  · exact .inr ⟨y, hy, hserved⟩

/-- Settles O7: the command is accepted, and its next step, with no event outstanding, is the hang. -/
theorem commandWaitsForTheStorageMemory : Obligations.CommandWaitsForTheStorageMemory := by
  intro s w ws i he hrst hidle hcmds hd hwait
  let q : State := { s with cmds := ws, cmdValid := false }
  have hserved : ∃ x ∈ (planAt i q).txns, served q x = false := by
    rw [planAt_congr i (s := q) (t := s) rfl rfl rfl]
    simpa only [served_eq_false_iff] using hwait
  refine ⟨accept i q, ?_, rfl, rfl, rfl, rfl, rfl, rfl, ?_⟩
  · rw [step_controller he, controller_word hrst hidle hcmds]
    exact runWord_waits hd hserved
  · exact step_eq_fault_iff.2 ⟨he, hrst, _, rfl, hangs_accept hserved⟩

/-! ### The state reset leaves -/

section
variable {s : State} (h : s.regs = Regs.reset s.cfg)
include h

theorem full_of_reset : full s.regs = true := by rw [h]; rfl

theorem empty_of_reset : empty s.regs = true := by rw [h]; rfl

theorem storing_of_reset (i : Instr) : storing i s.regs = false := by
  simp [← Bool.not_eq_true, storing_eq_true_iff, full_of_reset h]

theorem removing_of_reset (i : Instr) : removing i s.regs = false := by
  simp [← Bool.not_eq_true, removing_eq_true_iff, empty_of_reset h]

/-- INIT with capacity 0 writes BASE and ESIZE, and 0 where 0 stands already (R132). -/
theorem initRegs_of_reset (base esize : Nat) :
    { initRegs s.cfg s.regs base 0 esize with base := 0, esize := 0 } = s.regs := by
  rw [h, initRegs, capBits, Nat.zero_mod]
  rfl

end

/-- Settles O54: with CAP = COUNT = 0 the buffer is full and empty at once, so no command stores or removes. -/
theorem resetLeavesAnInertBuffer : Obligations.ResetLeavesAnInertBuffer := by
  intro s h
  have hfull := full_of_reset h
  have hempty := empty_of_reset h
  refine ⟨hfull, hempty, fun d => exec_of_answers (planEnq_full hfull d _), fun d => exec_of_answers rfl,
    fun p => exec_of_answers (planDeq_empty hempty p _), hfull ▸ exec_qfull s, hempty ▸ exec_qempty s,
    fun p => setcopyWritesCopyEn p s, fun p => setprintWritesPrintEn p s, fun p q b cap e t ht => ?_,
    fun i t ht => ?_, fun b e t ht => ?_⟩
  · rw [exec_init_present] at ht
    cases ht
    exact ⟨rfl, rfl⟩
  · obtain ⟨hmem, hbus, -⟩ := onlyTransfersTouchStorage i s t ht (storing_of_reset h i) (removing_of_reset h i)
    exact ⟨hbus, hmem⟩
  · rw [exec_init_present] at ht
    cases ht
    exact initRegs_of_reset h b e

end Sys2Proof.Machine

/-! PROOF of the family other: the words the test vectors list with their commands (95_test_vectors.md 2.8 and P3). -/

namespace Sys2Proof

/-- Settles O4: the configuration and the words are literals, so the decoder computes each command. -/
theorem specWordsDecodeAsListed : Obligations.SpecWordsDecodeAsListed :=
  ⟨rfl, rfl, rfl, rfl, rfl, rfl, rfl, rfl, rfl⟩

end Sys2Proof
